-- ==== Sys2Proof/Word.lean ====
section
/-! DEFINITION. The widths the spec gives the values of the block (R15, R16, R60, R67, R69). Every value is unsigned and
bit 0 is its least significant bit (R16). -/

namespace Sys2Proof

/-- A command word: one operation, delivered whole (R60). -/
abbrev Word := BitVec 64

/-- An unsigned count of microseconds: a timestamp, or a duration as a buffer slot holds it (R15). -/
abbrev Micros := BitVec 32

/-- The 28-bit code of the protocol (R67, R141). -/
abbrev Code := BitVec 28

/-- A 4-bit group of a code (R142). -/
abbrev Nibble := BitVec 4

end Sys2Proof
end

