-- ==== Sys2Proof/Config.lean ====
section
/-! DEFINITION. The parameters of the block as one record, and what makes a record legal (00_scope.md section 4). The
record of a machine stands in its state (Machine/State.lean); the values this hardware takes by default are
`Sys2Proof.Machine.defaultParams` (Machine/Parameters.lean). The spec leaves no value of any
operation undefined, so there is no free value here. -/

namespace Sys2Proof.Config

/-- SYNC_UNITS, fixed at 15 (R11). -/
def syncUnits : Nat := 15

/-- MIN_CHANGES, fixed at 6 (R12). -/
def minChanges : Nat := 6

/-- The parameter record a model takes as an argument (00_scope.md section 4). -/
structure Params where
  /-- CAPACITY, the number of slots of the pulse buffer (R8). -/
  capacity : Nat
  /-- GAP_LO, exclusive lower bound of the short-repeat window in microseconds (R9). -/
  gapLo : Nat
  /-- GAP_HI, exclusive upper bound of that window (R10). -/
  gapHi : Nat
  /-- TOL_RESET, the reset value of TOL_PCT (R13). -/
  tolReset : BitVec 7
  /-- KEY, 17 entries (R14, R150, R151). -/
  key : Vector Nibble 17
  /-- IKEY, 16 entries (R14, R150). -/
  ikey : Vector Nibble 16
deriving DecidableEq, Repr

/-- The ranges of R8 to R10 and R13. -/
abbrev Params.rangesLegal (p : Params) : Prop :=
  67 ≤ p.capacity ∧ p.capacity ≤ 255 ∧ p.gapLo < p.gapHi ∧ p.gapHi < 2 ^ 32 ∧ p.tolReset.toNat ≤ 100

/-- R150 (IKEY inverts KEY[0..15]) and R151 (the sentinel KEY[16] is KEY[0]). -/
abbrev Params.tablesLegal (p : Params) : Prop :=
  (∀ i : Fin 16, p.ikey[p.key[i.val].toNat] = BitVec.ofFin i) ∧ p.key[16] = p.key[0]

/-- A legal parameter record (00_scope.md section 4, R150, R151). -/
abbrev Params.legal (p : Params) : Prop := p.rangesLegal ∧ p.tablesLegal

end Sys2Proof.Config
end

