-- ==== Sys2Proof/Machine/Parameters.lean ====
section
/-! DEFINITION. The values this hardware takes for the parameters by default (R8 to R10, R13, R152). -/

namespace Sys2Proof.Machine

open Sys2Proof.Config

/-- The default parameters. PRESUMED (log entry 1), unsafe: the two tables are R152's, which the spec itself marks as
general knowledge. The numbers are those of R8 to R10 and R13. -/
def defaultParams : Params where
  capacity := 67
  gapLo := 4000
  gapHi := 6000
  tolReset := 60
  key := #v[9, 6, 3, 8, 10, 0, 2, 12, 4, 14, 7, 5, 1, 15, 11, 13, 9]
  ikey := #v[5, 12, 6, 2, 8, 11, 1, 10, 3, 0, 4, 14, 7, 15, 9, 13]

end Sys2Proof.Machine
end

