-- ==== Sys2Proof/Syntax.lean ====
section
/-! DEFINITION. The operations of the block: the opcodes and ports (R60 to R62, R70), the formats (R63 to R68), and one
constructor of `Instr` for each row of the opcode table, its operands at the widths of R69. -/

namespace Sys2Proof

/-- The two ports an operation can arrive on (R60). -/
inductive Port where
  | pulse
  | host
deriving DecidableEq, Repr

/-- The five formats of a command word (R63 to R65, R67, R68). -/
inductive Format where
  | n | t | b | c | e
deriving DecidableEq, Repr

/-- The fourteen assigned opcodes, in the order of R70. -/
inductive Opcode where
  | edge
  | rxEnable
  | rxRearm
  | rxDisable
  | rxSetTol
  | rxAvailable
  | rxResetAvailable
  | rxGetValue
  | rxGetBitlen
  | rxGetDelay
  | rxGetRaw
  | rxGetConfig
  | cipherDecrypt
  | cipherEncrypt
deriving DecidableEq, Repr

/-- An operation with its operands (R70); the operand widths are those of R69. -/
inductive Instr where
  /-- EDGE: a transition of the received signal at microsecond `time` (R100). -/
  | edge (time : Micros)
  /-- RX_ENABLE: start receiving on `pin` (R165). -/
  | rxEnable (pin : BitVec 8)
  /-- RX_REARM: restart receiving on the pin already configured (R166). -/
  | rxRearm
  /-- RX_DISABLE: stop receiving (R167). -/
  | rxDisable
  /-- RX_SET_TOL: set the tolerance to `pct` percent (R168). -/
  | rxSetTol (pct : BitVec 8)
  /-- RX_AVAILABLE: is an unclaimed value published (R169)? -/
  | rxAvailable
  /-- RX_RESET_AVAILABLE: claim the published value (R170). -/
  | rxResetAvailable
  /-- RX_GET_VALUE: read the published code (R171). -/
  | rxGetValue
  /-- RX_GET_BITLEN: read the published bit length (R172). -/
  | rxGetBitlen
  /-- RX_GET_DELAY: read the published unit (R173). -/
  | rxGetDelay
  /-- RX_GET_RAW: read slot `idx` of the pulse buffer (R174). -/
  | rxGetRaw (idx : BitVec 8)
  /-- RX_GET_CONFIG: read the control registers and the capacity (R175). -/
  | rxGetConfig
  /-- CIPHER_DECRYPT: unpack a code (R140). -/
  | cipherDecrypt (code : Code)
  /-- CIPHER_ENCRYPT: pack four fields into a code (R147). -/
  | cipherEncrypt (rid : Nibble) (val : BitVec 8) (rcode : BitVec 8) (tid : BitVec 16)
deriving DecidableEq, Repr

/-- The opcode of an operation. -/
def Instr.opcode : Instr → Opcode
  | .edge _ => .edge
  | .rxEnable _ => .rxEnable
  | .rxRearm => .rxRearm
  | .rxDisable => .rxDisable
  | .rxSetTol _ => .rxSetTol
  | .rxAvailable => .rxAvailable
  | .rxResetAvailable => .rxResetAvailable
  | .rxGetValue => .rxGetValue
  | .rxGetBitlen => .rxGetBitlen
  | .rxGetDelay => .rxGetDelay
  | .rxGetRaw _ => .rxGetRaw
  | .rxGetConfig => .rxGetConfig
  | .cipherDecrypt _ => .cipherDecrypt
  | .cipherEncrypt _ _ _ _ => .cipherEncrypt

end Sys2Proof
end

