-- ==== Sys2Proof/Machine/State.lean ====
section
/-! DEFINITION. The state of the block as plain data (10_state.md), the model's own view of its two ports, the reasons a
step can stop, and the state after reset (R43, R210). -/

namespace Sys2Proof.Machine

/-- STATUS of a response (R66). A code of 3 does not exist here: it is never returned (log entry 11). -/
inductive Status where
  | ok
  | errIllegal
  | errRange
deriving DecidableEq, Repr

/-- The response of a host operation: the pair (STATUS, DATA) of R66. -/
structure Response where
  status : Status
  data : BitVec 32
deriving DecidableEq, Repr

/-- What can reach the block from outside: a command word on a port (R60), or the external reset input (R210). -/
inductive Arrival where
  | operation (port : Port) (word : Word)
  | reset
deriving DecidableEq, Repr

/-- The pulse buffer: (slot, duration) pairs, slots strictly rising, no pair with the value 0, which is what an unlisted
slot holds (R26). A slot is the smallest addressable unit (R45); there are no bytes (R46).
Log entry 7. -/
abbrev Memory := List (Nat × Micros)

/-- The canonical form of the buffer from slot `lo` up: slots strictly rising and below `hi`, no 0 listed. -/
def Memory.wfFrom (hi : Nat) : Nat → Memory → Bool
  | _, [] => true
  | lo, (a, v) :: m => decide (lo ≤ a) && decide (a < hi) && decide (v ≠ 0) && Memory.wfFrom hi (a + 1) m

/-- The canonical form of a buffer of `hi` slots. -/
def Memory.wf (hi : Nat) (m : Memory) : Bool := Memory.wfFrom hi 0 m

/-- Every piece of state the spec gives the block (R43), and three fields of the model's own: `params`,
`arrivals` and `response`. -/
structure State where
  /-- The model's own: the parameter record of this block, KEY and IKEY among it (R8 to R14), which a machine takes as an
  argument. It is fixed at build time: no operation writes it (R35) and no reset changes it (R210). Log entry 15. -/
  params : Config.Params
  /-- RX_EN, receive enable (R22). -/
  rxEn : Bool
  /-- RX_PIN_VALID, a pin has been configured (R23). -/
  rxPinValid : Bool
  /-- RX_PIN, the pin last configured (R24). -/
  rxPin : BitVec 8
  /-- TOL_PCT, the tolerance in percent (R25). -/
  tolPct : BitVec 7
  /-- BUF, the pulse buffer (R26). -/
  buf : Memory
  /-- CC, the change count and write index (R27). -/
  cc : BitVec 8
  /-- RC, the repeat count (R28). -/
  rc : BitVec 2
  /-- LAST_TIME, the timestamp of the last EDGE processed (R29). -/
  lastTime : Micros
  /-- RX_VALUE, the published code (R30). -/
  rxValue : BitVec 32
  /-- RX_BITLEN, the published bit length (R31). -/
  rxBitlen : BitVec 32
  /-- RX_DELAY, the published unit (R32). -/
  rxDelay : BitVec 32
  /-- RX_AVAIL, a value is published and unclaimed (R33). -/
  rxAvail : Bool
  /-- The model's own: what arrives from now on, in the one total order of R49. The block keeps no queue (R42); this is
  the operation stream it is fed, which is outside it (R21). Log entry 2. -/
  arrivals : List Arrival
  /-- The model's own: what the last operation returned (R66), none after a pulse-port operation (R207). Log entry 3. -/
  response : Option Response
deriving DecidableEq, Repr

/-- Why the model stops. The block itself has no fault (R195). -/
inductive Fault where
  /-- Raised by DECODE (inside EDGE) when the frame reaches past the last slot of the buffer. Safe: the spec says no such
  slot exists (R45) and that DECODE never forms its index (R47); no state with CC at most CAPACITY (R36) raises it.
  Log entry 8. -/
  | slotOutsideBuffer (slot : Nat)
deriving DecidableEq, Repr

/-- Why the model declines an operation. -/
inductive Refusal where
  /-- Raised by an arm of `exec` that has no meaning yet; no arm does. Safe: the run stops. -/
  | notModelled (mnemonic : String)
deriving DecidableEq, Repr

/-- The state after reset of a block built with the parameters `p` (R43, R210), with nothing arriving and nothing
returned. -/
def State.resetWith (p : Config.Params) : State where
  params := p
  rxEn := false
  rxPinValid := false
  rxPin := 0
  tolPct := p.tolReset
  buf := []
  cc := 0
  rc := 0
  lastTime := 0
  rxValue := 0
  rxBitlen := 0
  rxDelay := 0
  rxAvail := false
  arrivals := []
  response := none

/-- The state after reset of this hardware, which takes the default parameters (log entries 1 and 15). -/
def State.reset : State := State.resetWith defaultParams

end Sys2Proof.Machine
end

