-- ==== Sys2Proof/Machine/Ops.lean ====
section
/-! DEFINITION. The primitives of R18: responding, refusing and dropping (what the block has in place of taking an
exception, R195), and access to the pulse buffer (R45, R48). -/

namespace Sys2Proof.Machine

/-- The outcome of one operation. -/
abbrev Result := Host.Outcome State Fault Refusal

/-- The 2-bit STATUS code (R66). -/
def Status.code : Status → BitVec 2
  | .ok => 0
  | .errIllegal => 1
  | .errRange => 2

/-- `respond(status, data)` (R18): return the response and end the operation. -/
def respond (status : Status) (data : BitVec 32) (s : State) : Result :=
  .next { s with response := some ⟨status, data⟩ }

/-- `raise` (R18, R190): an error response with DATA 0 and no other change. Nothing is saved or redirected (R195). -/
def raiseError (status : Status) (s : State) : Result := respond status 0 s

/-- `drop` (R18, R207): the operation ends with no state change and no response. -/
def dropOperation (s : State) : Result := .next { s with response := none }

/-- What a slot of the buffer holds; an unlisted slot holds 0 (R26). -/
def Memory.read : Memory → Nat → Micros
  | [], _ => 0
  | (b, v) :: m, a => if a = b then v else Memory.read m a

/-- Listing `v` at slot `a` in front of `m`, unless `v` is 0, which an unlisted slot already holds. -/
def Memory.list (a : Nat) (v : Micros) (m : Memory) : Memory := if v = 0 then m else (a, v) :: m

/-- `BUF[a] <- v` (R18, R48), keeping the canonical form. -/
def Memory.write : Memory → Nat → Micros → Memory
  | [], a, v => Memory.list a v []
  | (b, u) :: m, a, v =>
    if a < b then Memory.list a v ((b, u) :: m)
    else if a = b then Memory.list a v m
    else (b, u) :: Memory.write m a v

/-- `BUF[a]` (R18), none when the buffer has no such slot (R45). -/
def readSlot (p : Config.Params) (m : Memory) (a : Nat) : Option Micros :=
  if a < p.capacity then some (m.read a) else none

end Sys2Proof.Machine
end

