-- ==== Sys2Proof/Machine/Cipher.lean ====
section
/-! DEFINITION. The cipher (42_cipher.md): CIPHER_DECRYPT and CIPHER_ENCRYPT, pure functions of their operands and of the
tables KEY and IKEY (R35). -/

namespace Sys2Proof.Machine

open Sys2Proof.Config

/-- The seven nibbles of a 28-bit value, n0 the least significant (R142). -/
structure Nibbles where
  n0 : Nibble
  n1 : Nibble
  n2 : Nibble
  n3 : Nibble
  n4 : Nibble
  n5 : Nibble
  n6 : Nibble
deriving DecidableEq, Repr

/-- The four fields a code carries (R145). -/
structure Fields where
  rid : Nibble
  val : Nibble
  rcode : BitVec 2
  tid : BitVec 16
deriving DecidableEq, Repr

/-- `rotl28(v, 2)` (R141). -/
def rotl28 (v : Code) : Code := v <<< 2 ||| v >>> 26

/-- `rotr28(v, 2)` (R148). -/
def rotr28 (v : Code) : Code := v >>> 2 ||| (v &&& 3) <<< 26

/-- A 28-bit value as nibbles, least significant first (R142). -/
def splitNibbles (x : Code) : Nibbles where
  n0 := x.extractLsb' 0 4
  n1 := x.extractLsb' 4 4
  n2 := x.extractLsb' 8 4
  n3 := x.extractLsb' 12 4
  n4 := x.extractLsb' 16 4
  n5 := x.extractLsb' 20 4
  n6 := x.extractLsb' 24 4

/-- Nibbles as a 28-bit value, n6 most significant (R154). -/
def packNibbles (n : Nibbles) : Code := n.n6 ++ n.n5 ++ n.n4 ++ n.n3 ++ n.n2 ++ n.n1 ++ n.n0

/-- Nibble 6 whitened with 9 (R143, R154). -/
def whiten (n : Nibbles) : Nibbles := { n with n6 := n.n6 ^^^ 9 }

/-- `(IKEY[x] - r) mod 16` (R144). -/
def unsubstitute (p : Params) (r : Nat) (x : Nibble) : Nibble := p.ikey[x.toNat] - BitVec.ofNat 4 r

/-- `KEY[x + 1 - s]` (R153); the index is at most 16 (R162). -/
def substitute (p : Params) (s : Nat) (x : Nibble) : Nibble := p.key[x.toNat + 1 - s]'(by have := x.isLt; omega)

/-- Decrypt round `r` (R144): each nibble but n0 combines with the value its predecessor had when the round began, and
n6 takes no part (R143). -/
def decryptRound (p : Params) (r : Nat) (n : Nibbles) : Nibbles where
  n0 := unsubstitute p r n.n0
  n1 := unsubstitute p r n.n1 ^^^ n.n0
  n2 := unsubstitute p r n.n2 ^^^ n.n1
  n3 := unsubstitute p r n.n3 ^^^ n.n2
  n4 := unsubstitute p r n.n4 ^^^ n.n3
  n5 := unsubstitute p r n.n5 ^^^ n.n4
  n6 := n.n6

/-- Encrypt round `s` (R153): ascending, each nibble but n0 combines with the value just written before it. -/
def encryptRound (p : Params) (s : Nat) (n : Nibbles) : Nibbles :=
  let m0 := substitute p s n.n0
  let m1 := substitute p s (n.n1 ^^^ m0)
  let m2 := substitute p s (n.n2 ^^^ m1)
  let m3 := substitute p s (n.n3 ^^^ m2)
  let m4 := substitute p s (n.n4 ^^^ m3)
  let m5 := substitute p s (n.n5 ^^^ m4)
  ⟨m0, m1, m2, m3, m4, m5, n.n6⟩

/-- Step 5 of decrypt (R145): n1[0] is not used. -/
def fieldsOf (n : Nibbles) : Fields where
  rid := n.n0
  val := (n.n1.extractLsb' 1 1).setWidth 4 + (n.n6 &&& 7) + (n.n6 &&& 8) >>> 3
  rcode := n.n1.extractLsb' 2 2
  tid := n.n5 ++ n.n4 ++ n.n3 ++ n.n2

/-- The nibbles encrypt starts from (R149): n1[0] is 0. -/
def nibblesOf (rid : Nibble) (val rcode : BitVec 8) (tid : BitVec 16) : Nibbles where
  n0 := rid
  n1 := (rcode <<< 2).setWidth 4 ||| (if 0 < val.toNat then 2 else 0)
  n2 := tid.extractLsb' 0 4
  n3 := tid.extractLsb' 4 4
  n4 := tid.extractLsb' 8 4
  n5 := tid.extractLsb' 12 4
  n6 := if 2 ≤ val.toNat ∧ val.toNat ≤ 9 then (val - 2 ||| 8).setWidth 4 else 0

/-- Decrypt (R140): rotate, split, whiten, rounds r = 0 then 1, derive the fields. -/
def decryptWith (p : Params) (code : Code) : Fields :=
  fieldsOf (decryptRound p 1 (decryptRound p 0 (whiten (splitNibbles (rotl28 code)))))

/-- Encrypt (R147): build the nibbles, rounds s = 0 then 1, whiten, pack, rotate back. -/
def encryptWith (p : Params) (rid : Nibble) (val rcode : BitVec 8) (tid : BitVec 16) : Code :=
  rotr28 (packNibbles (whiten (encryptRound p 1 (encryptRound p 0 (nibblesOf rid val rcode tid)))))

/-- The CIPHER_DECRYPT result: transmitterId, rollingCode, value, receiverId from bit 31 down (R146). -/
def fieldsData (f : Fields) : BitVec 32 := f.tid ++ f.rcode.setWidth 8 ++ f.val ++ f.rid

/-- CIPHER_DECRYPT (R140), for the tables KEY and IKEY of the block (R14, R35). -/
def execCipherDecrypt (code : Code) (s : State) : Result := respond .ok (fieldsData (decryptWith s.params code)) s

/-- CIPHER_ENCRYPT (R147), for the tables KEY and IKEY of the block (R14, R35). -/
def execCipherEncrypt (rid : Nibble) (val rcode : BitVec 8) (tid : BitVec 16) (s : State) : Result :=
  respond .ok ((encryptWith s.params rid val rcode tid).setWidth 32) s

end Sys2Proof.Machine
end

