-- ==== Sys2Proof/Machine/Flags.lean ====
section
/-! DEFINITION. RX_AVAIL is the block's only flag (R41); it changes only together with the rest of ReceiverState, set by a
publish (R131) and cleared with it (R165, R170). -/

namespace Sys2Proof.Machine

/-- The publish (R131, R34): all four fields of ReceiverState in one step, whatever they held. -/
def State.publish (s : State) (code : BitVec 32) (bits delay : Nat) : State :=
  { s with rxValue := code, rxBitlen := BitVec.ofNat 32 bits, rxDelay := BitVec.ofNat 32 delay, rxAvail := true }

/-- Clearing ReceiverState (R165, R170): the flag and the three fields (R38). -/
def State.clearReceiver (s : State) : State :=
  { s with rxValue := 0, rxBitlen := 0, rxDelay := 0, rxAvail := false }

end Sys2Proof.Machine
end

