-- ==== Sys2Proof/Machine/Operands.lean ====
section
/-! DEFINITION. The operand forms of R69 as the meanings use them: each operand read unsigned at its own width, and the
range checks of R193. -/

namespace Sys2Proof.Machine

/-- PCT is in range (R168, R193). -/
def pctInRange (pct : BitVec 8) : Bool := decide (pct.toNat ≤ 100)

/-- PCT as TOL_PCT holds it; used only when it is in range (R25, R168). -/
def pctValue (pct : BitVec 8) : BitVec 7 := pct.setWidth 7

/-- IDX as a slot number (R69, R174). -/
def slotIndex (idx : BitVec 8) : Nat := idx.toNat

/-- A flag as a 32-bit result, `zext_32` (R16, R169). -/
def flagData (b : Bool) : BitVec 32 := (BitVec.ofBool b).setWidth 32

/-- The RX_GET_CONFIG result: CAPACITY, 0, TOL_PCT, RX_PIN, 0, RX_PIN_VALID, RX_EN from bit 31 down (layout under R175). -/
def configData (p : Config.Params) (s : State) : BitVec 32 :=
  BitVec.ofNat 8 p.capacity ++ 0#1 ++ s.tolPct ++ s.rxPin ++ 0#6 ++ BitVec.ofBool s.rxPinValid ++ BitVec.ofBool s.rxEn

end Sys2Proof.Machine
end

