-- ==== Sys2Proof/Machine/Control.lean ====
section
/-! DEFINITION. Receive control (43_host_interface.md section 1): RX_ENABLE, RX_REARM, RX_DISABLE, RX_SET_TOL. -/

namespace Sys2Proof.Machine

/-- Every write of R165: receive on, ReceiverState cleared, CC and RC 0; BUF, LAST_TIME and TOL_PCT as they were. -/
def State.enableReceive (s : State) (pin : BitVec 8) : State :=
  { s.clearReceiver with rxPin := pin, rxPinValid := true, rxEn := true, cc := 0, rc := 0 }

/-- RX_ENABLE (R165). -/
def execRxEnable (pin : BitVec 8) (s : State) : Result := respond .ok 0 (s.enableReceive pin)

/-- RX_REARM (R166): the writes of RX_ENABLE on the pin held, or nothing when there is none. -/
def execRxRearm (s : State) : Result := respond .ok 0 (if s.rxPinValid then s.enableReceive s.rxPin else s)

/-- RX_DISABLE (R167). -/
def execRxDisable (s : State) : Result := respond .ok 0 { s with rxEn := false }

/-- RX_SET_TOL (R168). -/
def execRxSetTol (pct : BitVec 8) (s : State) : Result :=
  if pctInRange pct then respond .ok 0 { s with tolPct := pctValue pct } else raiseError .errRange s

end Sys2Proof.Machine
end

