-- ==== Sys2Proof/Machine/ReadBack.lean ====
section
/-! DEFINITION. ReceiverState access and the read-back operations (43_host_interface.md sections 2 and 3). No read has a
side effect (R48, R169 to R175). -/

namespace Sys2Proof.Machine

/-- RX_AVAILABLE (R169). -/
def execRxAvailable (s : State) : Result := respond .ok (flagData s.rxAvail) s

/-- RX_RESET_AVAILABLE (R170). -/
def execRxResetAvailable (s : State) : Result := respond .ok 0 s.clearReceiver

/-- RX_GET_VALUE (R171). -/
def execRxGetValue (s : State) : Result := respond .ok s.rxValue s

/-- RX_GET_BITLEN (R172). -/
def execRxGetBitlen (s : State) : Result := respond .ok s.rxBitlen s

/-- RX_GET_DELAY (R173). -/
def execRxGetDelay (s : State) : Result := respond .ok s.rxDelay s

/-- RX_GET_RAW (R174), for any parameters. -/
def getRawWith (p : Config.Params) (idx : BitVec 8) (s : State) : Result :=
  match readSlot p s.buf (slotIndex idx) with
  | some v => respond .ok v s
  | none => raiseError .errRange s

/-- RX_GET_RAW (R174), for the parameters of the block. -/
def execRxGetRaw (idx : BitVec 8) (s : State) : Result := getRawWith s.params idx s

/-- RX_GET_CONFIG (R175), with the CAPACITY of the block. -/
def execRxGetConfig (s : State) : Result := respond .ok (configData s.params s) s

end Sys2Proof.Machine
end

