-- ==== Sys2Proof/Machine/BitDecoder.lean ====
section
/-! DEFINITION. The bit decoder, the procedure DECODE of 41_bit_decoder.md (R120 to R139), which EDGE calls. -/

namespace Sys2Proof.Machine

open Sys2Proof.Config

/-- `delay = BUF[0] // SYNC_UNITS` (R121). -/
def frameDelay (m : Memory) : Nat := (m.read 0).toNat / syncUnits

/-- `tol = (delay * TOL_PCT) // 100` (R122). -/
def frameTol (delay : Nat) (tolPct : BitVec 7) : Nat := delay * tolPct.toNat / 100

/-- The open window of an expected duration `c`, on exact integers (R123). -/
def inWindow (tol c : Nat) (x : Micros) : Bool :=
  decide ((c : Int) - tol < x.toNat) && decide ((x.toNat : Int) < c + tol)

/-- The bit a pair stands for, the 0 test first; none on a mismatch (R124 to R126, R129). -/
def classifyPair (delay tol : Nat) (a b : Micros) : Option Bool :=
  if inWindow tol delay a && inWindow tol (3 * delay) b then some false
  else if inWindow tol (3 * delay) a && inWindow tol delay b then some true
  else none

/-- The 32-bit accumulator takes a bit in at its low end (R128). -/
def shiftIn (code : BitVec 32) (bit : Bool) : BitVec 32 := code <<< 1 ||| (BitVec.ofBool bit).setWidth 32

/-- How reading the pairs of a frame ends. -/
inductive FrameReading where
  /-- Every pair classified; the accumulator. -/
  | code (value : BitVec 32)
  /-- A pair fitted neither window (R129). -/
  | mismatch
  /-- The frame reaches a slot the buffer does not have. -/
  | outside (slot : Nat)
deriving DecidableEq, Repr

/-- The loop of R120 over the pairs still to read, the next one at slots `i` and `i + 1` (R127 to R129). -/
def readPairs (p : Params) (m : Memory) (delay tol : Nat) : (pairs i : Nat) → BitVec 32 → FrameReading
  | 0, _, acc => .code acc
  | k + 1, i, acc =>
    match readSlot p m i, readSlot p m (i + 1) with
    | some a, some b =>
      match classifyPair delay tol a b with
      | some bit => readPairs p m delay tol k (i + 2) (shiftIn acc bit)
      | none => .mismatch
    | none, _ => .outside i
    | some _, none => .outside (i + 1)

/-- The reading of a frame of `n` transitions: `n // 2` pairs from slot 1 (R127). -/
def readFrame (p : Params) (s : State) (n : Nat) : FrameReading :=
  readPairs p s.buf (frameDelay s.buf) (frameTol (frameDelay s.buf) s.tolPct) (n / 2) 1 0

/-- DECODE(n) (R120): publish the frame when every pair classifies and `n` exceeds MIN_CHANGES (R131), else change
nothing (R132). -/
def decodeFrame (p : Params) (n : Nat) (s : State) : Result :=
  match readFrame p s n with
  | .code value => .next (if minChanges < n then s.publish value (n / 2) (frameDelay s.buf) else s)
  | .mismatch => .next s
  | .outside slot => .fault (.slotOutsideBuffer slot)

end Sys2Proof.Machine
end

