-- ==== Sys2Proof/Machine/Receive.lean ====
section
/-! DEFINITION. Pulse capture and frame assembly: the EDGE operation of 40_capture_assembly.md (R100 to R112). -/

namespace Sys2Proof.Machine

open Sys2Proof.Config

/-- The three classes of a duration (R103). -/
inductive DurationClass where
  | boundary
  | longGap
  | ordinary
deriving DecidableEq, Repr

/-- The class of a duration; every bound is exclusive (R103). -/
def classifyDuration (p : Params) (d : Micros) : DurationClass :=
  if p.gapLo < d.toNat ∧ d.toNat < p.gapHi then .boundary
  else if p.gapHi < d.toNat then .longGap
  else .ordinary

/-- The time since the last transition processed, mod 2^32 (R101). -/
def duration (s : State) (time : Micros) : Micros := time - s.lastTime

/-- `N = max(CC - 1, 0)`, the transition count of the frame a boundary closes (R104). -/
def frameLength (s : State) : Nat := s.cc.toNat - 1

/-- The slot a duration goes to, from the change count after classification: the overflow guard (R108). -/
def guardedIndex (p : Params) (cc : Nat) : Nat := if p.capacity ≤ cc then 0 else cc

/-- The repeat count after the overflow guard (R108). -/
def guardedRepeat (p : Params) (cc rc : Nat) : Nat := if p.capacity ≤ cc then 0 else rc

/-- The last lines of R100: the overflow guard, the store, and the counters and LAST_TIME (R108 to R110). No response.
Log entry 9: values of the counters that no state reached holds. -/
def storeDuration (p : Params) (cc rc : Nat) (d time : Micros) (s : State) : State :=
  { s with
    buf := s.buf.write (guardedIndex p cc) d
    cc := BitVec.ofNat 8 (guardedIndex p cc + 1)
    rc := BitVec.ofNat 2 (guardedRepeat p cc rc)
    lastTime := time
    response := none }

/-- A short-repeat boundary (R104 to R106): count it, and at the second one decode the frame before storing. -/
def edgeBoundary (p : Params) (d time : Micros) (s : State) : Result :=
  if s.rc.toNat + 1 = 2 then
    match decodeFrame p (frameLength s) s with
    | .next t => .next (storeDuration p 0 0 d time t)
    | .fault f => .fault f
    | .refused r => .refused r
  else .next (storeDuration p 0 (s.rc.toNat + 1) d time s)

/-- EDGE (R100), for any parameters. -/
def edgeWith (p : Params) (time : Micros) (s : State) : Result :=
  if s.rxEn then
    match classifyDuration p (duration s time) with
    | .boundary => edgeBoundary p (duration s time) time s
    | .longGap => .next (storeDuration p 0 s.rc.toNat (duration s time) time s)
    | .ordinary => .next (storeDuration p s.cc.toNat s.rc.toNat (duration s time) time s)
  else dropOperation s

/-- EDGE (R100), for the parameters of the block. -/
def execEdge (time : Micros) (s : State) : Result := edgeWith s.params time s

end Sys2Proof.Machine
end

