-- ==== Sys2Proof/Machine/Dispatch.lean ====
section
/-! DEFINITION. The meaning of each operation, one arm for each constructor of Instr. -/

namespace Sys2Proof.Machine

/-- The effect of an operation that has passed checks (1) to (3) of R75. -/
def exec (i : Instr) (s : State) : Host.Outcome State Fault Refusal :=
  match i with
  | .edge time => Sys2Proof.Machine.execEdge time s
  | .rxEnable pin => Sys2Proof.Machine.execRxEnable pin s
  | .rxRearm => Sys2Proof.Machine.execRxRearm s
  | .rxDisable => Sys2Proof.Machine.execRxDisable s
  | .rxSetTol pct => Sys2Proof.Machine.execRxSetTol pct s
  | .rxAvailable => Sys2Proof.Machine.execRxAvailable s
  | .rxResetAvailable => Sys2Proof.Machine.execRxResetAvailable s
  | .rxGetValue => Sys2Proof.Machine.execRxGetValue s
  | .rxGetBitlen => Sys2Proof.Machine.execRxGetBitlen s
  | .rxGetDelay => Sys2Proof.Machine.execRxGetDelay s
  | .rxGetRaw idx => Sys2Proof.Machine.execRxGetRaw idx s
  | .rxGetConfig => Sys2Proof.Machine.execRxGetConfig s
  | .cipherDecrypt code => Sys2Proof.Machine.execCipherDecrypt code s
  | .cipherEncrypt rid val rcode tid => Sys2Proof.Machine.execCipherEncrypt rid val rcode tid s

end Sys2Proof.Machine
end

