-- ==== Sys2Proof/WellFormed.lean ====
section
/-! DEFINITION. Which operations are well formed: check (4) of R75, the operand ranges. Every other operand value is
legal because its type has exactly the width of its field (R69). An operation that is not well formed still runs: it is
refused with ERR_RANGE by its own meaning (R193). -/

namespace Sys2Proof

/-- The operand range check (R75 point 4, R193), and no other: PIN, CODE, RID, VAL, RCODE, TID and TIME take any value. -/
def Instr.wellFormed (p : Config.Params) : Instr → Bool
  | .edge _ => true
  | .rxEnable _ => true
  | .rxRearm => true
  | .rxDisable => true
  | .rxSetTol pct => decide (pct.toNat ≤ 100)
  | .rxAvailable => true
  | .rxResetAvailable => true
  | .rxGetValue => true
  | .rxGetBitlen => true
  | .rxGetDelay => true
  | .rxGetRaw idx => decide (idx.toNat < p.capacity)
  | .rxGetConfig => true
  | .cipherDecrypt _ => true
  | .cipherEncrypt _ _ _ _ => true

end Sys2Proof
end

