-- ==== Sys2Proof/Decode.lean ====
section
/-! DEFINITION. The encoding of 30_encoding.md: opcode values, ports, formats and reserved bits (R61 to R70), the decoder
with the checks (1) to (3) of R75 in their order, and the encoder of R77. Total on every 64-bit word; a word that is no
operation is refused by name. -/

namespace Sys2Proof

/-- OPC of each assigned opcode (R70). -/
def Opcode.code : Opcode → BitVec 8
  | .edge => 0x01
  | .rxEnable => 0x10
  | .rxRearm => 0x11
  | .rxDisable => 0x12
  | .rxSetTol => 0x13
  | .rxAvailable => 0x20
  | .rxResetAvailable => 0x21
  | .rxGetValue => 0x22
  | .rxGetBitlen => 0x23
  | .rxGetDelay => 0x24
  | .rxGetRaw => 0x25
  | .rxGetConfig => 0x26
  | .cipherDecrypt => 0x30
  | .cipherEncrypt => 0x31

/-- The opcode with a given OPC, or none when the value is unassigned (R70, R71). -/
def opcodeOf (b : BitVec 8) : Option Opcode :=
  match b with
  | 0x01#8 => some .edge
  | 0x10#8 => some .rxEnable
  | 0x11#8 => some .rxRearm
  | 0x12#8 => some .rxDisable
  | 0x13#8 => some .rxSetTol
  | 0x20#8 => some .rxAvailable
  | 0x21#8 => some .rxResetAvailable
  | 0x22#8 => some .rxGetValue
  | 0x23#8 => some .rxGetBitlen
  | 0x24#8 => some .rxGetDelay
  | 0x25#8 => some .rxGetRaw
  | 0x26#8 => some .rxGetConfig
  | 0x30#8 => some .cipherDecrypt
  | 0x31#8 => some .cipherEncrypt
  | _ => none

/-- The port that accepts an opcode: EDGE on the pulse port, every other one on the host port (R62). -/
def Opcode.port : Opcode → Port
  | .edge => .pulse
  | .rxEnable | .rxRearm | .rxDisable | .rxSetTol | .rxAvailable | .rxResetAvailable | .rxGetValue | .rxGetBitlen
  | .rxGetDelay | .rxGetRaw | .rxGetConfig | .cipherDecrypt | .cipherEncrypt => .host

/-- The port that accepts an operation (R62). -/
def Instr.port (i : Instr) : Port := i.opcode.port

/-- The format an opcode selects (R61, R70). -/
def Opcode.format : Opcode → Format
  | .edge => .t
  | .rxEnable | .rxSetTol | .rxGetRaw => .b
  | .rxRearm | .rxDisable | .rxAvailable | .rxResetAvailable | .rxGetValue | .rxGetBitlen | .rxGetDelay
  | .rxGetConfig => .n
  | .cipherDecrypt => .c
  | .cipherEncrypt => .e

/-- The reserved bits RSV of a format (R63 to R65, R67, R68): every bit but the opcode and the operand fields. -/
def Format.reserved : Format → Word
  | .n => 0x00FFFFFFFFFFFFFF
  | .t => 0x00FFFFFF00000000
  | .b => 0x00FFFFFFFFFFFF00
  | .c => 0x00FFFFFFF0000000
  | .e => 0x00FFFFF000000000

/-- OPC, bits 63:56 of a word (R61). -/
def opcodeField (w : Word) : BitVec 8 := w.extractLsb' 56 8

/-- The operands of an opcode as they stand in a word (R63 to R65, R67 to R69). -/
def readOperands (o : Opcode) (w : Word) : Instr :=
  match o with
  | .edge => .edge (w.extractLsb' 0 32)
  | .rxEnable => .rxEnable (w.extractLsb' 0 8)
  | .rxRearm => .rxRearm
  | .rxDisable => .rxDisable
  | .rxSetTol => .rxSetTol (w.extractLsb' 0 8)
  | .rxAvailable => .rxAvailable
  | .rxResetAvailable => .rxResetAvailable
  | .rxGetValue => .rxGetValue
  | .rxGetBitlen => .rxGetBitlen
  | .rxGetDelay => .rxGetDelay
  | .rxGetRaw => .rxGetRaw (w.extractLsb' 0 8)
  | .rxGetConfig => .rxGetConfig
  | .cipherDecrypt => .cipherDecrypt (w.extractLsb' 0 28)
  | .cipherEncrypt =>
    .cipherEncrypt (w.extractLsb' 0 4) (w.extractLsb' 4 8) (w.extractLsb' 12 8) (w.extractLsb' 20 16)

/-- Why a word is no operation (R71 to R73); the only reasons there are (R74). -/
inductive Illegal where
  /-- The opcode is in no row of R70 (R71). -/
  | unassignedOpcode
  /-- The opcode belongs to the other port (R73). -/
  | wrongPort
  /-- A reserved bit of the opcode's format is 1 (R72). -/
  | reservedBits
deriving DecidableEq, Repr

/-- Check (3) of R75 and the reading of the operands, for an assigned opcode. -/
def decodeAs (o : Opcode) (w : Word) : Except Illegal Instr :=
  if w &&& o.format.reserved = 0 then .ok (readOperands o w) else .error .reservedBits

/-- The operation a word stands for whatever port it is on: checks (1) and (3) of R75. It is what disassembly reads (R81). -/
def decode (w : Word) : Except Illegal Instr :=
  match opcodeOf (opcodeField w) with
  | none => .error .unassignedOpcode
  | some o => decodeAs o w

/-- The operation a word on a port stands for: checks (1), (2) and (3) of R75, in that order. -/
def accept (port : Port) (w : Word) : Except Illegal Instr :=
  match opcodeOf (opcodeField w) with
  | none => .error .unassignedOpcode
  | some o => if o.port = port then decodeAs o w else .error .wrongPort

/-- A format N word (R63). -/
def wordN (opc : BitVec 8) : Word := opc ++ 0#56

/-- A format T word (R64). -/
def wordT (opc : BitVec 8) (time : Micros) : Word := opc ++ 0#24 ++ time

/-- A format B word (R65). -/
def wordB (opc : BitVec 8) (b : BitVec 8) : Word := opc ++ 0#48 ++ b

/-- A format C word (R67). -/
def wordC (opc : BitVec 8) (code : Code) : Word := opc ++ 0#28 ++ code

/-- A format E word (R68). -/
def wordE (opc : BitVec 8) (tid : BitVec 16) (rcode val : BitVec 8) (rid : Nibble) : Word :=
  opc ++ 0#20 ++ tid ++ rcode ++ val ++ rid

/-- The encoder (R77): each operand in its field of R63 to R68, every reserved bit 0. -/
def encode : Instr → Word
  | .edge time => wordT 0x01 time
  | .rxEnable pin => wordB 0x10 pin
  | .rxRearm => wordN 0x11
  | .rxDisable => wordN 0x12
  | .rxSetTol pct => wordB 0x13 pct
  | .rxAvailable => wordN 0x20
  | .rxResetAvailable => wordN 0x21
  | .rxGetValue => wordN 0x22
  | .rxGetBitlen => wordN 0x23
  | .rxGetDelay => wordN 0x24
  | .rxGetRaw idx => wordB 0x25 idx
  | .rxGetConfig => wordN 0x26
  | .cipherDecrypt code => wordC 0x30 code
  | .cipherEncrypt rid val rcode tid => wordE 0x31 tid rcode val rid

/-- One row of the match and mask table under R70. -/
structure TableRow where
  opcode : Opcode
  pattern : Word
  mask : Word
deriving DecidableEq, Repr

/-- The match and mask table under R70, transcribed row by row; the decoder above does not use it. -/
def opcodeTable : List TableRow :=
  [⟨.edge, 0x0100000000000000, 0xFFFFFFFF00000000⟩,
   ⟨.rxEnable, 0x1000000000000000, 0xFFFFFFFFFFFFFF00⟩,
   ⟨.rxRearm, 0x1100000000000000, 0xFFFFFFFFFFFFFFFF⟩,
   ⟨.rxDisable, 0x1200000000000000, 0xFFFFFFFFFFFFFFFF⟩,
   ⟨.rxSetTol, 0x1300000000000000, 0xFFFFFFFFFFFFFF00⟩,
   ⟨.rxAvailable, 0x2000000000000000, 0xFFFFFFFFFFFFFFFF⟩,
   ⟨.rxResetAvailable, 0x2100000000000000, 0xFFFFFFFFFFFFFFFF⟩,
   ⟨.rxGetValue, 0x2200000000000000, 0xFFFFFFFFFFFFFFFF⟩,
   ⟨.rxGetBitlen, 0x2300000000000000, 0xFFFFFFFFFFFFFFFF⟩,
   ⟨.rxGetDelay, 0x2400000000000000, 0xFFFFFFFFFFFFFFFF⟩,
   ⟨.rxGetRaw, 0x2500000000000000, 0xFFFFFFFFFFFFFF00⟩,
   ⟨.rxGetConfig, 0x2600000000000000, 0xFFFFFFFFFFFFFFFF⟩,
   ⟨.cipherDecrypt, 0x3000000000000000, 0xFFFFFFFFF0000000⟩,
   ⟨.cipherEncrypt, 0x3100000000000000, 0xFFFFFFF000000000⟩]

/-- The word whose bits are `w`, of which the table gives `nbits`; bits above are 0. A command word is delivered whole
(R60), so no byte order arises (R46). -/
def tableWord (nbits w : Nat) : Word := BitVec.ofNat 64 (w % 2 ^ nbits)

/-- What the decoder reads from a word numbered as the opcode table numbers it. -/
def decodeTableWord (nbits w : Nat) : Option Instr :=
  match decode (tableWord nbits w) with
  | .ok i => some i
  | .error _ => none

end Sys2Proof
end

