-- ==== Sys2Proof/Machine/Ports.lean ====
section
/-! DEFINITION. What the ports do around an operation: what a word that is no operation gets (R71 to R73), what the reset
input does (R210), and which port a well-formed word of the table belongs on (R62). -/

namespace Sys2Proof.Machine

/-- A word that is no operation: ERR_ILLEGAL on the host port, dropped on the pulse port (R71 to R73, R192, R207). -/
def refuseWord (port : Port) (s : State) : Result :=
  match port with
  | .host => raiseError .errIllegal s
  | .pulse => dropOperation s

/-- The external reset input (R210): every state element at its reset value; the parameters and what
arrives later as they were. Log entry 6. -/
def State.applyReset (s : State) : State := { State.resetWith s.params with arrivals := s.arrivals }

/-- The port a word is delivered on so that it can run (R62): its opcode's port, the host port for an unassigned one. -/
def deliveryPort (w : Word) : Port :=
  match opcodeOf (opcodeField w) with
  | some o => o.port
  | none => .host

end Sys2Proof.Machine
end

