-- ==== Sys2Proof/Machine/Step.lean ====
section
/-! DEFINITION. One step: the next arrival, executed to completion (R19, R49, R60). -/

namespace Sys2Proof.Machine

/-- One operation word on a port: the checks of R75 in order, then the operation. -/
def stepWord (port : Port) (w : Word) (s : State) : Result :=
  match accept port w with
  | .ok i => exec i s
  | .error _ => refuseWord port s

/-- One step (R19): the next arrival is taken and handled as a whole (R50). With nothing arriving the block stays as it is
(log entry 4). -/
def step (s : State) : Host.Outcome State Fault Refusal :=
  match s.arrivals with
  | [] => .next s
  | .operation port w :: rest => stepWord port w { s with arrivals := rest }
  | .reset :: rest => .next ({ s with arrivals := rest } : State).applyReset

/-- The state with one more operation arriving first, on the port its opcode belongs to (R62); nothing else changes.
Log entry 5 says how a program comes to run. -/
def State.withFetchWord (s : State) (nbits w : Nat) : State :=
  { s with arrivals := .operation (deliveryPort (tableWord nbits w)) (tableWord nbits w) :: s.arrivals }

end Sys2Proof.Machine
end

