-- ==== Sys2Proof/Machine/Wire.lean ====
section
/-! DEFINITION. The wire format of a transmission (R113 to R118): the input the block is built to decode. The block does
not generate it (R4); the assembler's REP and the statements about nominal frames use it. -/

namespace Sys2Proof.Machine

/-- A bit as its (high, low) durations at unit `u` (R115, R116). -/
def bitDurations (u : Nat) (bit : Bool) : List Nat := if bit then [3 * u, u] else [u, 3 * u]

/-- The 28 bits of a code, most significant first (R117). -/
def codeBits (code : Code) : List Bool := (List.range 28).map fun k => code.getLsbD (27 - k)

/-- The 56 bit durations of one repetition (R117, R118). -/
def payloadDurations (code : Code) (u : Nat) : List Nat := (codeBits code).flatMap (bitDurations u)

/-- The 58 durations one repetition delivers: sync high, sync low, then the bits (R114, R118). -/
def repetitionDurations (code : Code) (u : Nat) : List Nat := u :: 15 * u :: payloadDurations code u

/-- The durations of a transmission: `retries + 1` repetitions (R117). -/
def transmissionDurations (code : Code) (u retries : Nat) : List Nat :=
  (List.replicate (retries + 1) (repetitionDurations code u)).flatten

/-- The number of retries a transmitter sends unless told otherwise (R117). -/
def defaultRetries : Nat := 4

/-- BUF[0..57] when the next repetition's sync low arrives (R118). -/
def frameSlots (code : Code) (u : Nat) : List Nat := 15 * u :: payloadDurations code u ++ [u]

/-- The EDGE operations of a list of durations, each measured from the timestamp before it (R78, R79). -/
def edgeArrivals : (start : Micros) → List Nat → List Arrival
  | _, [] => []
  | t, d :: ds =>
    .operation .pulse (encode (.edge (t + BitVec.ofNat 32 d))) :: edgeArrivals (t + BitVec.ofNat 32 d) ds

end Sys2Proof.Machine
end

