-- ==== Sys2Proof/Machine/Assembler.lean ====
section
/-! DEFINITION. The assembler's lines, their encoding and disassembly (R77 to R81), on lines already read; Machine/Text.lean
reads and prints their characters. What the rules leave open is in log entry 10. -/

namespace Sys2Proof.Machine

/-- A program line (R77 to R80). -/
inductive Line where
  /-- `<port> <mnemonic> <operands>` (R77). -/
  | operation (port : Port) (op : Opcode) (operands : List Nat)
  /-- `.time <t>` (R78). -/
  | time (t : Nat)
  /-- `<port> .word64 <hex>` (R78). -/
  | word64 (port : Port) (word : Nat)
  /-- `P EDGE+ <d>` (R78). -/
  | edgePlus (d : Nat)
  /-- `P REP <code>, <u>` (R79). -/
  | rep (code u : Nat)
  /-- `H CLAIM` (R80). -/
  | claim
deriving DecidableEq, Repr

/-- An operand in its field, refused when it does not fit (R77). -/
def fitOperand (width v : Nat) : Option (BitVec width) := if v < 2 ^ width then some (BitVec.ofNat width v) else none

/-- The operation of a line, its operands in the order of R77; none when an operand does not fit or their number is wrong. -/
def assembleInstr (op : Opcode) (operands : List Nat) : Option Instr :=
  match op, operands with
  | .edge, [t] => (fitOperand 32 t).map .edge
  | .rxEnable, [pin] => (fitOperand 8 pin).map .rxEnable
  | .rxRearm, [] => some .rxRearm
  | .rxDisable, [] => some .rxDisable
  | .rxSetTol, [pct] => (fitOperand 8 pct).map .rxSetTol
  | .rxAvailable, [] => some .rxAvailable
  | .rxResetAvailable, [] => some .rxResetAvailable
  | .rxGetValue, [] => some .rxGetValue
  | .rxGetBitlen, [] => some .rxGetBitlen
  | .rxGetDelay, [] => some .rxGetDelay
  | .rxGetRaw, [idx] => (fitOperand 8 idx).map .rxGetRaw
  | .rxGetConfig, [] => some .rxGetConfig
  | .cipherDecrypt, [code] => (fitOperand 28 code).map .cipherDecrypt
  | .cipherEncrypt, [rid, val, rcode, tid] =>
    match fitOperand 4 rid, fitOperand 8 val, fitOperand 8 rcode, fitOperand 16 tid with
    | some r, some v, some c, some t => some (.cipherEncrypt r v c t)
    | _, _, _, _ => none
  | _, _ => none

/-- The running timestamp after a line's operation: an EDGE sets it to its own (R78). -/
def timeAfter (now : Nat) : Instr → Nat
  | .edge t => t.toNat
  | _ => now

/-- The last timestamp of a run of durations, mod 2^32 (R78). -/
def timeAfterDurations (now : Nat) (ds : List Nat) : Nat := (now + ds.sum) % 2 ^ 32

/-- One line at running timestamp `now`: the timestamp after it and what it delivers (R77 to R80); none when refused. -/
def assembleLine (now : Nat) : Line → Option (Nat × List Arrival)
  | .operation port op operands =>
    match assembleInstr op operands with
    | some i => if i.port = port then some (timeAfter now i, [.operation port (encode i)]) else none
    | none => none
  | .time t => some (t, [])
  | .word64 port w => (fitOperand 64 w).map fun word => (now, [.operation port word])
  | .edgePlus d => some (timeAfterDurations now [d], edgeArrivals (BitVec.ofNat 32 now) [d])
  | .rep code u =>
    (fitOperand 28 code).map fun c =>
      (timeAfterDurations now (repetitionDurations c u), edgeArrivals (BitVec.ofNat 32 now) (repetitionDurations c u))
  | .claim => some (now, [Instr.rxAvailable, .rxGetValue, .rxResetAvailable].map fun i => .operation .host (encode i))

/-- A program from running timestamp `now`. One refused line refuses the whole program: DESIGN CHOICE (log entry 10), for R77
says only that the operand is refused. -/
def assembleFrom : (now : Nat) → List Line → Option (List Arrival)
  | _, [] => some []
  | now, line :: lines =>
    match assembleLine now line with
    | some (later, ops) => (assembleFrom later lines).map (ops ++ ·)
    | none => none

/-- A program; the running timestamp starts at 0 (R78). None when a line is refused (log entry 10). -/
def assemble (lines : List Line) : Option (List Arrival) := assembleFrom 0 lines

/-- A number as it prints (R81). -/
inductive Numeral where
  | hex (n : Nat)
  | dec (n : Nat)
deriving DecidableEq, Repr

/-- The number a numeral stands for. -/
def Numeral.value : Numeral → Nat
  | .hex n => n
  | .dec n => n

/-- What disassembly prints for a word (R81). -/
inductive Printed where
  | line (op : Opcode) (operands : List Numeral)
  | word64 (word : Word)
deriving DecidableEq, Repr

/-- The operand fields in the order of R77, TIME and CODE in hexadecimal, the rest in decimal (R81). -/
def printOperands : Instr → List Numeral
  | .edge time => [.hex time.toNat]
  | .rxEnable pin => [.dec pin.toNat]
  | .rxRearm => []
  | .rxDisable => []
  | .rxSetTol pct => [.dec pct.toNat]
  | .rxAvailable => []
  | .rxResetAvailable => []
  | .rxGetValue => []
  | .rxGetBitlen => []
  | .rxGetDelay => []
  | .rxGetRaw idx => [.dec idx.toNat]
  | .rxGetConfig => []
  | .cipherDecrypt code => [.hex code.toNat]
  | .cipherEncrypt rid val rcode tid => [.dec rid.toNat, .dec val.toNat, .dec rcode.toNat, .dec tid.toNat]

/-- Disassembly (R81). -/
def disassemble (w : Word) : Printed :=
  match decode w with
  | .ok i => .line i.opcode (printOperands i)
  | .error _ => .word64 w

/-- A printed word as a program line on a port. -/
def Printed.onPort (port : Port) : Printed → Line
  | .line op operands => .operation port op (operands.map Numeral.value)
  | .word64 w => .word64 port w.toNat

end Sys2Proof.Machine
end

