-- ==== Sys2Proof/Machine/Text.lean ====
section
/-! DEFINITION. The characters of a program line and of a disassembled word (R77 to R81). What the rules leave open about
blanks, letter case and zeros is in log entry 10. -/

namespace Sys2Proof.Machine

/-- A line of a program, character by character. -/
abbrev Text := List Char

/-- The mnemonic of an opcode (R70). -/
def mnemonicOf : Opcode → Text
  | .edge => "EDGE".toList
  | .rxEnable => "RX_ENABLE".toList
  | .rxRearm => "RX_REARM".toList
  | .rxDisable => "RX_DISABLE".toList
  | .rxSetTol => "RX_SET_TOL".toList
  | .rxAvailable => "RX_AVAILABLE".toList
  | .rxResetAvailable => "RX_RESET_AVAILABLE".toList
  | .rxGetValue => "RX_GET_VALUE".toList
  | .rxGetBitlen => "RX_GET_BITLEN".toList
  | .rxGetDelay => "RX_GET_DELAY".toList
  | .rxGetRaw => "RX_GET_RAW".toList
  | .rxGetConfig => "RX_GET_CONFIG".toList
  | .cipherDecrypt => "CIPHER_DECRYPT".toList
  | .cipherEncrypt => "CIPHER_ENCRYPT".toList

/-- The opcodes, in the order of R70. -/
def allOpcodes : List Opcode :=
  [.edge, .rxEnable, .rxRearm, .rxDisable, .rxSetTol, .rxAvailable, .rxResetAvailable, .rxGetValue, .rxGetBitlen,
    .rxGetDelay, .rxGetRaw, .rxGetConfig, .cipherDecrypt, .cipherEncrypt]

/-- The letter of a port (R77). -/
def portLetter : Port → Char
  | .pulse => 'P'
  | .host => 'H'

/-! ### Numbers -/

/-- The digits as they print. -/
def digitChars : Text := "0123456789ABCDEF".toList

/-- A digit below 16 as a character. -/
def digitChar (n : Nat) : Char := digitChars.getD n '?'

/-- The value of a digit; the letters in either case. -/
def digitValue (c : Char) : Option Nat :=
  match digitChars.idxOf? c with
  | some n => some n
  | none => "0123456789abcdef".toList.idxOf? c

/-- Digits in a base, most significant first, after a number already read. -/
def readDigits (base : Nat) : (acc : Nat) → Text → Option Nat
  | acc, [] => some acc
  | acc, c :: cs =>
    match digitValue c with
    | some d => if d < base then readDigits base (acc * base + d) cs else none
    | none => none

/-- A number: decimal, or hexadecimal after `0x` (R77). -/
def readNumber : Text → Option Nat
  | [] => none
  | '0' :: 'x' :: [] => none
  | '0' :: 'x' :: digits => readDigits 16 0 digits
  | digits => readDigits 10 0 digits

/-- The digits of a number in a base, in front of what follows; at most `count` of them, without leading zeros. -/
def printDigits (base : Nat) : (count n : Nat) → Text → Text
  | 0, _, rest => rest
  | count + 1, n, rest =>
    if n < base then digitChar n :: rest else printDigits base count (n / base) (digitChar (n % base) :: rest)

/-- Exactly `count` hexadecimal digits, in front of what follows. -/
def printHexDigits : (count n : Nat) → Text → Text
  | 0, _, rest => rest
  | count + 1, n, rest => printHexDigits count (n / 16) (digitChar (n % 16) :: rest)

/-- A numeral (R81); no operand has more than 32 bits, so 10 digits are enough. -/
def Numeral.text : Numeral → Text
  | .hex n => '0' :: 'x' :: printDigits 16 10 n []
  | .dec n => printDigits 10 10 n []

/-! ### Disassembly -/

/-- Numerals separated by commas (R77). -/
def joinNumerals : List Numeral → Text
  | [] => []
  | [n] => n.text
  | n :: ns => n.text ++ ',' :: ' ' :: joinNumerals ns

/-- The characters of a disassembled word (R81). -/
def Printed.text : Printed → Text
  | .line op [] => mnemonicOf op
  | .line op operands => mnemonicOf op ++ ' ' :: joinNumerals operands
  | .word64 w => ".word64 0x".toList ++ printHexDigits 16 w.toNat []

/-! ### Reading a line -/

/-- A blank character. -/
def isBlank (c : Char) : Bool := c == ' ' || c == '\t'

/-- The line without its comment (R77). -/
def dropComment (t : Text) : Text := t.takeWhile (· != ';')

/-- The first word of a text, and what follows it. -/
def splitWord (t : Text) : Text × Text := (t.dropWhile isBlank).span (! isBlank ·)

/-- A text without its blanks. -/
def dropBlanks (t : Text) : Text := t.filter (! isBlank ·)

/-- The pieces of a text between commas. -/
def splitCommas : Text → List Text
  | [] => [[]]
  | c :: cs =>
    match splitCommas cs with
    | [] => [[c]]
    | piece :: pieces => if c = ',' then [] :: piece :: pieces else (c :: piece) :: pieces

/-- A piece that is one number, blanks around it apart. -/
def readPiece (t : Text) : Option Nat :=
  match splitWord t with
  | (word, rest) => if dropBlanks rest = [] then readNumber word else none

/-- Every piece a number. -/
def readPieces : List Text → Option (List Nat)
  | [] => some []
  | piece :: pieces =>
    match readPiece piece, readPieces pieces with
    | some n, some ns => some (n :: ns)
    | _, _ => none

/-- The operands of a line, separated by commas (R77). -/
def readOperandList (t : Text) : Option (List Nat) :=
  if dropBlanks t = [] then some [] else readPieces (splitCommas t)

/-- What a line says after its port (R77 to R80): an operation, EDGE+, REP, CLAIM or `.word64`. -/
def readAfterPort (port : Port) (mnemonic : Text) (operands : List Nat) : Option Line :=
  if mnemonic = ".word64".toList then
    match operands with
    | [w] => some (.word64 port w)
    | _ => none
  else if mnemonic = "EDGE+".toList then
    match port, operands with
    | .pulse, [d] => some (.edgePlus d)
    | _, _ => none
  else if mnemonic = "REP".toList then
    match port, operands with
    | .pulse, [code, u] => some (.rep code u)
    | _, _ => none
  else if mnemonic = "CLAIM".toList then
    match port, operands with
    | .host, [] => some .claim
    | _, _ => none
  else (allOpcodes.find? fun op => mnemonicOf op == mnemonic).map fun op => .operation port op operands

/-- The words of a line, its comment dropped: `.time` or a port first (R77, R78). -/
def readWords (first rest : Text) : Option Line :=
  if first = ".time".toList then (readPiece rest).map .time
  else if first = "P".toList then (readOperandList (splitWord rest).2).bind (readAfterPort .pulse (splitWord rest).1)
  else if first = "H".toList then (readOperandList (splitWord rest).2).bind (readAfterPort .host (splitWord rest).1)
  else none

/-- A line of text: none when it is refused, no line when it is blank or only a comment. -/
def readLine (t : Text) : Option (Option Line) :=
  let (first, rest) := splitWord (dropComment t)
  if first = [] then some none else (readWords first rest).map some

/-- The lines of a program; blank lines say nothing, and one refused line refuses the whole program (DESIGN CHOICE, log
entry 10). -/
def readProgram : List Text → Option (List Line)
  | [] => some []
  | t :: ts =>
    match readLine t, readProgram ts with
    | some (some line), some lines => some (line :: lines)
    | some none, some lines => some lines
    | _, _ => none

/-- A program from its text to what it delivers (R77 to R80); none when any line is refused (log entry 10). -/
def assembleText (ts : List Text) : Option (List Arrival) := (readProgram ts).bind assemble

end Sys2Proof.Machine
end

