-- ==== Sys2Proof/Safety.lean ====
section
/-! DEFINITION. What the statements are made of: the invariant of 10_state.md section 6, the state seen through one slot of
the buffer, and the decoder's windows written as the spec writes them, apart from the machine's own functions. -/

namespace Sys2Proof.Machine

/-- What holds of every reachable state between operations (R25, R36 to R39; the canonical form of BUF; receive is on only
with a pin configured, R22, R23; a legal parameter record, 00_scope.md section 4). -/
structure Consistent (s : State) : Prop where
  paramsLegal : s.params.legal
  bufCanonical : s.buf.wf s.params.capacity = true
  ccInRange : s.cc.toNat ≤ s.params.capacity
  rcAtRest : s.rc.toNat ≤ 1
  tolInRange : s.tolPct.toNat ≤ 100
  enabledHasPin : s.rxEn = true → s.rxPinValid = true
  clearedWhenUnavailable : s.rxAvail = false → s.rxValue = 0 ∧ s.rxBitlen = 0 ∧ s.rxDelay = 0
  lengthWhenAvailable : s.rxAvail = true → 3 ≤ s.rxBitlen.toNat ∧ s.rxBitlen.toNat ≤ (s.params.capacity - 1) / 2

/-- The same ReceiverState: RX_VALUE, RX_BITLEN, RX_DELAY and RX_AVAIL. -/
abbrev sameReceiver (s t : State) : Prop :=
  t.rxValue = s.rxValue ∧ t.rxBitlen = s.rxBitlen ∧ t.rxDelay = s.rxDelay ∧ t.rxAvail = s.rxAvail

/-- ReceiverState in the cleared state. -/
abbrev clearedReceiver (t : State) : Prop := t.rxValue = 0 ∧ t.rxBitlen = 0 ∧ t.rxDelay = 0 ∧ t.rxAvail = false

/-- The same control registers: RX_EN, RX_PIN_VALID, RX_PIN and TOL_PCT. -/
abbrev sameControl (s t : State) : Prop :=
  t.rxEn = s.rxEn ∧ t.rxPinValid = s.rxPinValid ∧ t.rxPin = s.rxPin ∧ t.tolPct = s.tolPct

/-- The open window of R123, on exact integers. -/
abbrev InOpenWindow (c tol : Nat) (x : Micros) : Prop := (c : Int) - tol < x.toNat ∧ (x.toNat : Int) < c + tol

/-- A pair of durations stands for a bit (R124, R125). -/
abbrev PairIs (delay tol : Nat) (bit : Bool) (a b : Micros) : Prop :=
  match bit with
  | false => InOpenWindow delay tol a ∧ InOpenWindow (3 * delay) tol b
  | true => InOpenWindow (3 * delay) tol a ∧ InOpenWindow delay tol b

/-- The unit of the buffered frame as R121 gives it. -/
abbrev specDelay (s : State) : Nat := (s.buf.read 0).toNat / 15

/-- The tolerance of the buffered frame as R122 gives it. -/
abbrev specTol (s : State) : Nat := specDelay s * s.tolPct.toNat / 100

/-- The pair at slots `2k + 1` and `2k + 2` of the buffered frame stands for a bit (R127). -/
abbrev FramePairIs (s : State) (k : Nat) (bit : Bool) : Prop :=
  PairIs (specDelay s) (specTol s) bit (s.buf.read (2 * k + 1)) (s.buf.read (2 * k + 2))

/-- A list of bits as a number, the first most significant (R128, before the reduction mod 2^32). -/
def bitsValue (bits : List Bool) : Nat := bits.foldl (fun acc b => 2 * acc + b.toNat) 0

/-- A duration that closes a frame: strictly between GAP_LO and GAP_HI (R103). -/
abbrev IsBoundary (s : State) (time : Micros) : Prop :=
  s.params.gapLo < (duration s time).toNat ∧ (duration s time).toNat < s.params.gapHi

/-- The state an EDGE leaves, given the ReceiverState `r` it leaves: duration stored at `slot`, CC one above, RC as given
(R105 to R110), everything else as in `s`. -/
abbrev afterStore (s r : State) (slot rc : Nat) (time : Micros) : State :=
  { s with
    buf := s.buf.write slot (duration s time)
    cc := BitVec.ofNat 8 (slot + 1)
    rc := BitVec.ofNat 2 rc
    lastTime := time
    rxValue := r.rxValue
    rxBitlen := r.rxBitlen
    rxDelay := r.rxDelay
    rxAvail := r.rxAvail
    response := none }

/-- OPC values that no row of R70 has, as R71 lists them. -/
abbrev UnassignedOpc (b : BitVec 8) : Prop :=
  b.toNat = 0 ∨ (0x02 ≤ b.toNat ∧ b.toNat ≤ 0x0F) ∨ (0x14 ≤ b.toNat ∧ b.toNat ≤ 0x1F) ∨
    (0x27 ≤ b.toNat ∧ b.toNat ≤ 0x2F) ∨ 0x32 ≤ b.toNat

/-- How many low bits the operands of an OPC take: 32 for EDGE (R64), 8 for format B (R65), 28 for CIPHER_DECRYPT (R67),
36 for CIPHER_ENCRYPT (R68), none for format N (R63). -/
def operandBits (b : BitVec 8) : Nat :=
  match b.toNat with
  | 0x01 => 32
  | 0x10 => 8
  | 0x13 => 8
  | 0x25 => 8
  | 0x30 => 28
  | 0x31 => 36
  | _ => 0

/-- Some bit between the operands and the opcode is 1 (R72). -/
abbrev ReservedBitSet (w : Word) : Prop := (w.toNat % 2 ^ 56) / 2 ^ operandBits (opcodeField w) ≠ 0

/-- What an illegal word leaves: ERR_ILLEGAL on the host port, no response on the pulse port, nothing else (R71 to R73). -/
abbrev afterIllegal (port : Port) (rest : List Arrival) (s : State) : State :=
  { s with
    arrivals := rest
    response := match port with
      | .host => some ⟨.errIllegal, 0⟩
      | .pulse => none }

/-- The state with a response, everything else as it was. -/
abbrev responding (s : State) (status : Status) (data : BitVec 32) : State := { s with response := some ⟨status, data⟩ }

/-- The nibbles as a list, n0 first (R142). -/
def Nibbles.toList (n : Nibbles) : List Nibble := [n.n0, n.n1, n.n2, n.n3, n.n4, n.n5, n.n6]

/-- Decrypt round `r` as the loop of R140 over one list that is overwritten in place: i = 5, 4, 3, 2, 1, then n0. -/
def decryptRoundInPlace (p : Config.Params) (r : Nat) (n : List Nibble) : List Nibble :=
  let m := [5, 4, 3, 2, 1].foldl (fun m i => m.set i (unsubstitute p r (m.getD i 0) ^^^ m.getD (i - 1) 0)) n
  m.set 0 (unsubstitute p r (m.getD 0 0))

/-- Encrypt round `s` as the loop of R147 over one list that is overwritten in place: n0, then i = 1, 2, 3, 4, 5. -/
def encryptRoundInPlace (p : Config.Params) (s : Nat) (n : List Nibble) : List Nibble :=
  [1, 2, 3, 4, 5].foldl (fun m i => m.set i (substitute p s (m.getD i 0 ^^^ m.getD (i - 1) 0)))
    (n.set 0 (substitute p s (n.getD 0 0)))

/-- The state of vector V-H9 (95_test_vectors.md section 2.5), with what arrives left open: a frame of code 0x24B4D96 at
unit 300 buffered, an older value unclaimed. -/
def claimRaceStart (arrivals : List Arrival) : State :=
  { State.reset with
    rxEn := true
    rxPinValid := true
    buf := (frameSlots 0x24B4D96 300).zipIdx.map fun slot => (slot.2, BitVec.ofNat 32 slot.1)
    cc := 58
    rc := 1
    lastTime := 0x1000
    rxValue := 2
    rxBitlen := 3
    rxDelay := 300
    rxAvail := true
    arrivals := arrivals }

/-- The words still to arrive on a port, in order (R49). -/
def portWords (port : Port) : List Arrival → List Word
  | [] => []
  | .operation q w :: rest => if q = port then w :: portWords port rest else portWords port rest
  | .reset :: rest => portWords port rest

end Sys2Proof.Machine
end

