-- ==== Sys2Proof/Certificates/Slice0/Obligations.lean ====
section
/-! DEFINITION. The statements for the provers. Each is about the machine; none is about a program. -/

open Sys2Proof Sys2Proof.Machine

/-! ### Encoding and the ports -/

/-- Decoding an encoded operation gives it back, on its own port too, whatever its operands (30_encoding.md sections 2
and 3). -/
def Obligations.DecodeOfEncode : Prop :=
  ∀ i : Instr, decode (encode i) = .ok i ∧ accept i.port (encode i) = .ok i

/-- A word that is an operation is the encoding of it: no bit of a legal word is without meaning (R74). -/
def Obligations.EncodeOfDecode : Prop :=
  ∀ (w : Word) (i : Instr), decode w = .ok i → encode i = w

/-- A word is an operation exactly when a row of the match and mask table selects it, and then it is that row's
(30_encoding.md section 3). -/
def Obligations.OperationsAreTheTableRows : Prop :=
  ∀ w : Word,
    (∀ i, decode w = .ok i → ∃ r ∈ opcodeTable, w &&& r.mask = r.pattern ∧ r.opcode = i.opcode) ∧
    (∀ r ∈ opcodeTable, w &&& r.mask = r.pattern → ∃ i, decode w = .ok i ∧ i.opcode = r.opcode)

/-- Words of vectors V-X1 to V-X15 decode to the operations they are written for (95_test_vectors.md section 2.1). -/
def Obligations.VectorWordsDecode : Prop :=
  decode 0x0100000000002194 = .ok (.edge 0x2194) ∧
  decode 0x1000000000000002 = .ok (.rxEnable 2) ∧
  decode 0x130000000000003C = .ok (.rxSetTol 60) ∧
  decode 0x2500000000000039 = .ok (.rxGetRaw 57) ∧
  decode 0x2600000000000000 = .ok .rxGetConfig ∧
  decode 0x30000000024B4D96 = .ok (.cipherDecrypt 0x24B4D96) ∧
  decode 0x3100000123400011 = .ok (.cipherEncrypt 1 1 0 0x1234)

/-- When the next arrival is a word that its port accepts as an operation, the step is that operation's effect on the
state with the arrival taken. -/
def Obligations.StepRunsTheAcceptedOperation : Prop :=
  ∀ (s : State) (port : Port) (w : Word) (rest : List Arrival) (i : Instr),
    s.arrivals = .operation port w :: rest → accept port w = .ok i → step s = exec i { s with arrivals := rest }

/-- An encoded operation delivered to a state is the next thing it runs. How a word is delivered is the model's choice, not
the spec's (DESIGN CHOICE, log entry 5): `withFetchWord` places it first among what arrives, on the port of its opcode. That
its encoding decodes to it again is 30_encoding.md sections 2 and 3. -/
def Obligations.DeliveredWordRunsNext : Prop :=
  ∀ (i : Instr) (s : State), step (s.withFetchWord 64 (encode i).toNat) = exec i s

/-- R71, R72, R73: an unassigned opcode, a reserved bit that is 1, or a word on the wrong port changes nothing; the host
port answers (ERR_ILLEGAL, 0), the pulse port nothing. -/
def Obligations.IllegalWordsChangeNothing : Prop :=
  ∀ (s : State) (w : Word) (rest : List Arrival) (port : Port), s.arrivals = .operation port w :: rest →
    (UnassignedOpc (opcodeField w) → step s = .next (afterIllegal port rest s)) ∧
    (¬ UnassignedOpc (opcodeField w) → ReservedBitSet w → step s = .next (afterIllegal port rest s)) ∧
    (opcodeField w = 0x01 → port = .host → step s = .next (afterIllegal port rest s)) ∧
    (¬ UnassignedOpc (opcodeField w) → opcodeField w ≠ 0x01 → port = .pulse →
      step s = .next (afterIllegal port rest s))

/-- ERR_ILLEGAL is returned on the host port for exactly three causes: an unassigned opcode, an EDGE word, a reserved bit
that is 1 (60_exceptions.md section 1). -/
def Obligations.IllegalHasThreeCauses : Prop :=
  ∀ (s t : State) (w : Word) (rest : List Arrival), s.arrivals = .operation .host w :: rest → step s = .next t →
    ((∃ data, t.response = some ⟨.errIllegal, data⟩) ↔
      UnassignedOpc (opcodeField w) ∨ opcodeField w = 0x01 ∨ ReservedBitSet w)

/-- R193: ERR_RANGE (STATUS 2) is returned for exactly two causes, PCT above 100 and IDX not below CAPACITY. -/
def Obligations.RangeErrorHasTwoCauses : Prop :=
  Status.errRange.code = 2 ∧
  ∀ (i : Instr) (s t : State), exec i s = .next t →
    ((∃ data, t.response = some ⟨.errRange, data⟩) ↔
      (∃ pct, i = .rxSetTol pct ∧ 100 < pct.toNat) ∨ (∃ idx, i = .rxGetRaw idx ∧ s.params.capacity ≤ idx.toNat))

/-- R190: a step that returns an error status returns DATA 0 and changes nothing else. -/
def Obligations.ErrorChangesNoState : Prop :=
  ∀ (s t : State) (port : Port) (w : Word) (rest : List Arrival) (r : Response),
    s.arrivals = .operation port w :: rest → step s = .next t → t.response = some r → r.status ≠ .ok →
    r.data = 0 ∧ t = { s with arrivals := rest, response := some r }

/-- R207: the pulse port returns nothing, and a word it does not accept changes nothing. -/
def Obligations.PulsePortReturnsNothing : Prop :=
  ∀ (s t : State) (w : Word) (rest : List Arrival), s.arrivals = .operation .pulse w :: rest → step s = .next t →
    t.response = none ∧ ((∀ i, accept .pulse w ≠ .ok i) → t = { s with arrivals := rest, response := none })

/-- A host-port operation always completes and returns exactly one response; STATUS is 0, 1 or 2, and DATA is 0 when it is
not OK (30_encoding.md section 2). -/
def Obligations.HostPortReturnsOneResponse : Prop :=
  ∀ (s : State) (w : Word) (rest : List Arrival), s.arrivals = .operation .host w :: rest →
    ∃ t r, step s = .next t ∧ t.response = some r ∧ r.status.code ≠ 3 ∧ (r.status.code ≠ 0 → r.data = 0)

/-- Arrivals are taken one at a time and in order: a step takes the first one and no other, so the words of the other port
wait as they were (20_memory.md section 2; the arrival list is the model's, log entry 2). -/
def Obligations.ArrivalsAreTakenInOrder : Prop :=
  ∀ (s t : State) (port : Port) (w : Word) (rest : List Arrival),
    s.arrivals = .operation port w :: rest → step s = .next t →
    t.arrivals = rest ∧ portWords port s.arrivals = w :: portWords port t.arrivals ∧
    ∀ other, other ≠ port → portWords other t.arrivals = portWords other s.arrivals

/-- The claim race of vectors V-H9 and V-H10: the same words on each port, interleaved in two ways, once lose the code
that was just published and once show it (70_reset_and_hazards.md section 2). -/
def Obligations.ClaimRaceDependsOnInterleaving : Prop :=
  let edge := Arrival.operation .pulse (encode (.edge 0x2194))
  let read := Arrival.operation .host (encode .rxGetValue)
  let claim := Arrival.operation .host (encode .rxResetAvailable)
  let lost := claimRaceStart [read, edge, claim]
  let seen := claimRaceStart [edge, read, claim]
  (∀ port, portWords port lost.arrivals = portWords port seen.arrivals) ∧
  (∃ t, Host.Core.run Sys2Proof.core 1 lost = .next t ∧ t.response = some ⟨.ok, 2⟩) ∧
  (∃ t, Host.Core.run Sys2Proof.core 2 lost = .next t ∧ t.rxAvail = true ∧ t.rxValue = 0x24B4D96) ∧
  (∃ t, Host.Core.run Sys2Proof.core 3 lost = .next t ∧ t.rxAvail = false ∧ t.rxValue = 0) ∧
  (∃ t, Host.Core.run Sys2Proof.core 2 seen = .next t ∧ t.response = some ⟨.ok, 0x24B4D96⟩)

/-! ### Reset and the invariant -/

/-- The reset values of every state element, for any parameters, and the reset input, which sets them all at once in any
state and leaves the parameters (10_state.md section 7, 70_reset_and_hazards.md section 1); with the default parameters
TOL_PCT is 60. That the state holds the parameters is the model's choice (log entry 15). That reset is an arrival, that what is listed after it stays to
arrive, and that no response is held after it is the model's reading (DEDUCED, log entry 6). -/
def Obligations.ResetSetsEveryElement : Prop :=
  (∀ p : Config.Params,
    let z := State.resetWith p
    z.params = p ∧ z.rxEn = false ∧ z.rxPinValid = false ∧ z.rxPin = 0 ∧ z.tolPct = p.tolReset ∧
    (∀ slot, z.buf.read slot = 0) ∧ z.cc = 0 ∧ z.rc = 0 ∧ z.lastTime = 0 ∧
    z.rxValue = 0 ∧ z.rxBitlen = 0 ∧ z.rxDelay = 0 ∧ z.rxAvail = false) ∧
  State.reset = State.resetWith defaultParams ∧ State.reset.tolPct = 60 ∧
  ∀ (s : State) (rest : List Arrival), s.arrivals = .reset :: rest →
    step s = .next { State.resetWith s.params with arrivals := rest }

/-- The state after reset meets the invariant, for every legal parameter record and for the default one. -/
def Obligations.ResetMeetsTheInvariant : Prop :=
  (∀ p : Config.Params, p.legal → Consistent (State.resetWith p)) ∧ Consistent State.reset

/-- No step changes the parameters, the reset input included: the block is parametric in them (00_scope.md section 4), no
operation writes KEY or IKEY (10_state.md section 5) and reset changes none (70_reset_and_hazards.md section 1). That the
state holds them is the model's choice (DESIGN CHOICE, log entry 15). -/
def Obligations.ParametersAreFixed : Prop :=
  ∀ s t : State, step s = .next t → t.params = s.params

/-- Every step from a state that meets the invariant leaves one that meets it (10_state.md section 6). -/
def Obligations.StepKeepsTheInvariant : Prop :=
  ∀ s t : State, Consistent s → step s = .next t → Consistent t

/-- From a state that meets the invariant every step completes: nothing stops the block, and no slot outside the buffer is
ever touched (20_memory.md section 1, 60_exceptions.md section 1). With nothing arriving a step completes by the model's
choice to leave the state as it is (DESIGN CHOICE, log entry 4). -/
def Obligations.StepNeverStops : Prop :=
  ∀ s : State, Consistent s → ∃ t, step s = .next t

/-! ### EDGE -/

/-- R102: with receive disabled an EDGE changes no state, and enabling or re-arming leaves LAST_TIME as it is, so the next
duration is measured from the last transition processed. -/
def Obligations.DisabledEdgeIsDropped : Prop :=
  ∀ (s : State) (time : Micros), s.rxEn = false →
    exec (.edge time) s = .next { s with response := none } ∧
    (∀ pin t later, exec (.rxEnable pin) s = .next t → t.lastTime = s.lastTime ∧ duration t later = later - s.lastTime) ∧
    (∀ t later, exec .rxRearm s = .next t → t.lastTime = s.lastTime ∧ duration t later = later - s.lastTime)

/-- An ordinary duration goes to the slot CC names, CC advances, RC keeps its value; at a full buffer both counters are
reset first (40_capture_assembly.md section 1, R103, R108 and R109 as the pseudocode of R100 runs them). -/
def Obligations.OrdinaryEdgeStoresAtChangeCount : Prop :=
  ∀ (s : State) (time : Micros), s.rxEn = true → ¬ IsBoundary s time → (duration s time).toNat ≤ s.params.gapHi →
    (s.cc.toNat < s.params.capacity → exec (.edge time) s = .next (afterStore s s s.cc.toNat s.rc.toNat time)) ∧
    (s.params.capacity ≤ s.cc.toNat → exec (.edge time) s = .next (afterStore s s 0 0 time))

/-- R107: a long gap resets the change count, decodes nothing, leaves the repeat count, and is stored at slot 0. -/
def Obligations.LongGapOpensAFrame : Prop :=
  ∀ (s : State) (time : Micros), s.params.legal → s.rxEn = true → s.params.gapHi < (duration s time).toNat →
    exec (.edge time) s = .next (afterStore s s 0 s.rc.toNat time)

/-- The first short-repeat boundary is counted, decodes nothing and is stored at slot 0 (the debounce,
40_capture_assembly.md section 1). -/
def Obligations.FirstBoundaryDecodesNothing : Prop :=
  ∀ (s : State) (time : Micros), s.params.legal → s.rxEn = true → IsBoundary s time → s.rc = 0 →
    exec (.edge time) s = .next (afterStore s s 0 1 time)

/-- R127, R128, R131: at the second boundary a frame of N = CC - 1 transitions, N above 6, whose N // 2 pairs all classify
publishes its bits, most significant first and reduced mod 2^32, its bit length and its unit, overwriting what was there;
then the boundary is stored at slot 0 and the repeat count is 0. -/
def Obligations.SecondBoundaryPublishesTheFrame : Prop :=
  ∀ (s : State) (time : Micros) (bits : List Bool),
    s.rxEn = true → IsBoundary s time → s.rc = 1 → s.cc.toNat ≤ s.params.capacity → s.tolPct.toNat ≤ 100 →
    6 < s.cc.toNat - 1 → bits.length = (s.cc.toNat - 1) / 2 →
    (∀ k bit, bits[k]? = some bit → FramePairIs s k bit) →
    exec (.edge time) s = .next (afterStore s
      { s with
        rxValue := BitVec.ofNat 32 (bitsValue bits)
        rxBitlen := BitVec.ofNat 32 ((s.cc.toNat - 1) / 2)
        rxDelay := BitVec.ofNat 32 (specDelay s)
        rxAvail := true } 0 0 time)

/-- R132: a frame with a pair that fits neither class, or of at most 6 transitions, leaves ReceiverState unchanged, and
still counts as the decode: the repeat count returns to 0. -/
def Obligations.FailedDecodePublishesNothing : Prop :=
  ∀ (s : State) (time : Micros),
    s.params.legal → s.rxEn = true → IsBoundary s time → s.rc = 1 → s.cc.toNat ≤ s.params.capacity →
    (s.cc.toNat - 1 ≤ 6 ∨ ∃ k, k < (s.cc.toNat - 1) / 2 ∧ ∀ bit, ¬ FramePairIs s k bit) →
    exec (.edge time) s = .next (afterStore s s 0 0 time)

/-- R106, R110: every EDGE that is not dropped sets LAST_TIME; a boundary resets the change count, so it is stored at slot 0
and CC is 1 afterwards. The frame: one slot is written, at the index the classification and the overflow guard give, CC is
one above it, every other slot reads as before, and no control register changes. -/
def Obligations.EdgeStoresOneDuration : Prop :=
  ∀ (s t : State) (time : Micros),
    s.params.legal → s.buf.wf s.params.capacity = true → s.rxEn = true → exec (.edge time) s = .next t →
    t.lastTime = time ∧
    (IsBoundary s time → t.buf.read 0 = duration s time ∧ t.cc = 1) ∧
    (let slot :=
      if classifyDuration s.params (duration s time) = .ordinary then guardedIndex s.params s.cc.toNat else 0
     t.buf.read slot = duration s time ∧ t.cc.toNat = slot + 1 ∧ slot < s.params.capacity ∧
     ∀ other, other ≠ slot → t.buf.read other = s.buf.read other) ∧
    sameControl s t ∧ t.arrivals = s.arrivals

/-- R124, R125: for every legal tolerance the decoder reads a pair as 0 exactly when it lies in the windows of (delay,
3 delay), and as 1 exactly when it lies in those of (3 delay, delay). -/
def Obligations.PairsClassifyByTheirWindows : Prop :=
  ∀ (delay : Nat) (pct : BitVec 7) (a b : Micros) (bit : Bool), pct.toNat ≤ 100 →
    (classifyPair delay (frameTol delay pct) a b = some bit ↔ PairIs delay (delay * pct.toNat / 100) bit a b)

/-- With an absolute tolerance of 0 every window is empty, so no EDGE publishes (41_bit_decoder.md section 5). -/
def Obligations.ZeroTolerancePublishesNothing : Prop :=
  ∀ (s t : State) (time : Micros), specTol s = 0 → exec (.edge time) s = .next t → sameReceiver s t

/-- A buffered nominal frame of any 28-bit code at unit u publishes that code, bit length 28 and unit u at its second
boundary, at any tolerance that leaves the windows open (41_bit_decoder.md section 5). -/
def Obligations.NominalFramePublishesItsCode : Prop :=
  ∀ (s : State) (time : Micros) (code : Code) (u : Nat),
    s.params.legal → s.rxEn = true → IsBoundary s time → s.rc = 1 → s.cc = 58 → s.tolPct.toNat ≤ 100 →
    15 * u < 2 ^ 32 → 100 ≤ u * s.tolPct.toNat →
    (∀ slot d, (frameSlots code u)[slot]? = some d → (s.buf.read slot).toNat = d) →
    exec (.edge time) s = .next (afterStore s
      { s with rxValue := code.setWidth 32, rxBitlen := 28, rxDelay := BitVec.ofNat 32 u, rxAvail := true } 0 0 time)

/-- A transmission of `retries + 1` repetitions of a 28-bit code, at a unit whose sync low is a boundary and whose
other durations are ordinary, met with a repeat count of 0: its boundaries alternate, so the repeat count left is the parity of the repetitions; a single repetition
publishes nothing, and two or more leave the code, its length and its unit published (40_capture_assembly.md section 2). -/
def Obligations.TransmissionPublishesItsCode : Prop :=
  ∀ (s : State) (code : Code) (u retries : Nat),
    Consistent s → s.rxEn = true → s.rc = 0 →
    s.params.gapLo < 15 * u → 15 * u < s.params.gapHi → 3 * u ≤ s.params.gapLo → 100 ≤ u * s.tolPct.toNat → s.arrivals = edgeArrivals s.lastTime (transmissionDurations code u retries) →
    ∃ t, Host.Core.run Sys2Proof.core (58 * (retries + 1)) s = .next t ∧ t.arrivals = [] ∧
      t.rc.toNat = (retries + 1) % 2 ∧
      (retries = 0 → sameReceiver s t) ∧
      (1 ≤ retries → t.rxAvail = true ∧ t.rxValue = code.setWidth 32 ∧ t.rxBitlen = 28 ∧ t.rxDelay = BitVec.ofNat 32 u)

/-- While receive is disabled no stream of words on the pulse port, legal or not, changes any state (40_capture_assembly.md
section 1, 60_exceptions.md section 3). -/
def Obligations.DisabledReceiveIgnoresThePulsePort : Prop :=
  ∀ (words : List Word) (s : State) (rest : List Arrival), s.rxEn = false → words ≠ [] →
    s.arrivals = words.map (Arrival.operation .pulse) ++ rest →
    Host.Core.run Sys2Proof.core words.length s = .next { s with arrivals := rest, response := none }

/-! ### Receive control and ReceiverState -/

/-- R165: RX_ENABLE, encoding and effect; it always completes. -/
def Obligations.RxEnableStartsReceive : Prop :=
  ∀ (pin : BitVec 8) (s : State),
    (encode (.rxEnable pin)).toNat = 0x10 * 2 ^ 56 + pin.toNat ∧
    exec (.rxEnable pin) s = .next
      { s with
        rxPin := pin, rxPinValid := true, rxEn := true
        rxValue := 0, rxBitlen := 0, rxDelay := 0, rxAvail := false
        cc := 0, rc := 0
        response := some ⟨.ok, 0⟩ }

/-- R166: RX_REARM, encoding and effect: every write of RX_ENABLE on the pin held, or nothing at all; it always completes. -/
def Obligations.RxRearmRestartsReceive : Prop :=
  encode .rxRearm = 0x1100000000000000 ∧
  ∀ s : State,
    (s.rxPinValid = true → exec .rxRearm s = exec (.rxEnable s.rxPin) s ∧ ∃ t, exec .rxRearm s = .next t ∧
      t.rxEn = true ∧ t.rxPin = s.rxPin ∧ clearedReceiver t ∧ t.cc = 0 ∧ t.rc = 0 ∧ t.response = some ⟨.ok, 0⟩) ∧
    (s.rxPinValid = false → exec .rxRearm s = .next (responding s .ok 0))

/-- R167: RX_DISABLE, encoding and effect; it always completes. -/
def Obligations.RxDisableStopsReceive : Prop :=
  encode .rxDisable = 0x1200000000000000 ∧
  ∀ s : State, exec .rxDisable s = .next { s with rxEn := false, response := some ⟨.ok, 0⟩ }

/-- R168: RX_SET_TOL, encoding and effect: it sets TOL_PCT, or refuses with ERR_RANGE and changes nothing. -/
def Obligations.RxSetTolSetsTheTolerance : Prop :=
  ∀ (pct : BitVec 8) (s : State),
    (encode (.rxSetTol pct)).toNat = 0x13 * 2 ^ 56 + pct.toNat ∧
    (pct.toNat ≤ 100 → ∃ tol : BitVec 7, tol.toNat = pct.toNat ∧
      exec (.rxSetTol pct) s = .next { s with tolPct := tol, response := some ⟨.ok, 0⟩ }) ∧
    (100 < pct.toNat → exec (.rxSetTol pct) s = .next (responding s .errRange 0))

/-- R170: RX_RESET_AVAILABLE, encoding and effect: it clears all four fields; it always completes. -/
def Obligations.RxResetAvailableClears : Prop :=
  encode .rxResetAvailable = 0x2100000000000000 ∧
  ∀ s : State, exec .rxResetAvailable s = .next
    { s with rxAvail := false, rxValue := 0, rxBitlen := 0, rxDelay := 0, response := some ⟨.ok, 0⟩ }

/-- R169, R171, R172, R173: the four reads of ReceiverState, encodings and results; they have no side effect and always
complete. -/
def Obligations.ReceiverReadsHaveNoSideEffect : Prop :=
  encode .rxAvailable = 0x2000000000000000 ∧ encode .rxGetValue = 0x2200000000000000 ∧
  encode .rxGetBitlen = 0x2300000000000000 ∧ encode .rxGetDelay = 0x2400000000000000 ∧
  ∀ s : State,
    exec .rxAvailable s = .next (responding s .ok (if s.rxAvail then 1 else 0)) ∧
    exec .rxGetValue s = .next (responding s .ok s.rxValue) ∧
    exec .rxGetBitlen s = .next (responding s .ok s.rxBitlen) ∧
    exec .rxGetDelay s = .next (responding s .ok s.rxDelay)

/-- R174: RX_GET_RAW, encoding and result: the slot's value, or ERR_RANGE from CAPACITY up; nothing changes. -/
def Obligations.RxGetRawReadsOneSlot : Prop :=
  ∀ (idx : BitVec 8) (s : State),
    (encode (.rxGetRaw idx)).toNat = 0x25 * 2 ^ 56 + idx.toNat ∧
    (idx.toNat < s.params.capacity → exec (.rxGetRaw idx) s = .next (responding s .ok (s.buf.read idx.toNat))) ∧
    (s.params.capacity ≤ idx.toNat → exec (.rxGetRaw idx) s = .next (responding s .errRange 0))

/-- R175: RX_GET_CONFIG, encoding and result, by the places of its fields; nothing changes and it always completes. -/
def Obligations.RxGetConfigReadsTheControlRegisters : Prop :=
  encode .rxGetConfig = 0x2600000000000000 ∧
  ∀ s : State, ∃ data : BitVec 32, exec .rxGetConfig s = .next (responding s .ok data) ∧
    (s.params.legal → data.toNat =
      s.params.capacity * 2 ^ 24 + s.tolPct.toNat * 2 ^ 16 + s.rxPin.toNat * 2 ^ 8 + s.rxPinValid.toNat * 2 + s.rxEn.toNat)

/-- Which operations write the control registers: RX_EN only RX_ENABLE, RX_REARM with a pin, and RX_DISABLE;
RX_PIN_VALID and RX_PIN only RX_ENABLE, and RX_PIN_VALID is never cleared; TOL_PCT only RX_SET_TOL (10_state.md section 2). -/
def Obligations.ControlRegisterWriters : Prop :=
  ∀ (i : Instr) (s t : State), exec i s = .next t →
    ((t.rxEn = true ∧ ((∃ pin, i = .rxEnable pin) ∨ (i = .rxRearm ∧ s.rxPinValid = true))) ∨
      (t.rxEn = false ∧ i = .rxDisable) ∨ t.rxEn = s.rxEn) ∧
    (s.rxPinValid = true → t.rxPinValid = true) ∧
    ((∃ pin, i = .rxEnable pin ∧ t.rxPin = pin ∧ t.rxPinValid = true) ∨
      (t.rxPin = s.rxPin ∧ t.rxPinValid = s.rxPinValid)) ∧
    ((∃ pct, i = .rxSetTol pct ∧ t.tolPct.toNat = pct.toNat) ∨ t.tolPct = s.tolPct)

/-- R179: no host operation writes BUF or LAST_TIME, CC and RC it can only clear (RX_ENABLE, RX_REARM), and ReceiverState it
can only clear (those two and RX_RESET_AVAILABLE); only EDGE writes nonzero values to ReceiverState, by the publish of a second boundary. -/
def Obligations.HostOnlyClearsCaptureState : Prop :=
  (∀ (time : Micros) (s t : State), exec (.edge time) s = .next t →
    sameReceiver s t ∨ (s.rxEn = true ∧ IsBoundary s time ∧ s.rc = 1 ∧ t.rxAvail = true)) ∧
  ∀ (i : Instr) (s t : State), i.port = .host → exec i s = .next t →
    t.buf = s.buf ∧ t.lastTime = s.lastTime ∧ t.arrivals = s.arrivals ∧
    ((t.cc = s.cc ∧ t.rc = s.rc) ∨ (t.cc = 0 ∧ t.rc = 0 ∧ ((∃ pin, i = .rxEnable pin) ∨ i = .rxRearm))) ∧
    (sameReceiver s t ∨
      (clearedReceiver t ∧ ((∃ pin, i = .rxEnable pin) ∨ i = .rxRearm ∨ i = .rxResetAvailable)))

/-- CC, RC and LAST_TIME are hidden: no host operation's response depends on them (10_state.md section 7). -/
def Obligations.HostCannotReadHiddenState : Prop :=
  ∀ (i : Instr) (s t t' : State) (cc : BitVec 8) (rc : BitVec 2) (lastTime : Micros), i.port = .host →
    exec i s = .next t → exec i { s with cc := cc, rc := rc, lastTime := lastTime } = .next t' →
    t'.response = t.response

/-- RX_PIN has no effect inside the block: an EDGE does the same whatever pin is held (10_state.md section 2). -/
def Obligations.PinHasNoEffectOnReceive : Prop :=
  ∀ (s t : State) (time : Micros) (pin : BitVec 8), exec (.edge time) s = .next t →
    exec (.edge time) { s with rxPin := pin } = .next { t with rxPin := pin }

/-! ### Cipher -/

/-- R35: each cipher operation's response is a function of its operands and the tables KEY and IKEY alone, and it changes
nothing; it always completes. No operation writes the tables. -/
def Obligations.CipherIsStateless : Prop :=
  ∀ (key : Vector Nibble 17) (ikey : Vector Nibble 16),
    (∀ code : Code, ∃ data, ∀ s : State, s.params.key = key → s.params.ikey = ikey →
      exec (.cipherDecrypt code) s = .next (responding s .ok data)) ∧
    (∀ (rid : Nibble) (val rcode : BitVec 8) (tid : BitVec 16), ∃ data,
      ∀ s : State, s.params.key = key → s.params.ikey = ikey →
        exec (.cipherEncrypt rid val rcode tid) s = .next (responding s .ok data)) ∧
    (∀ (i : Instr) (s t : State), exec i s = .next t → t.params.key = s.params.key ∧ t.params.ikey = s.params.ikey)

/-- R159: CIPHER_ENCRYPT gives a 28-bit code for every operand value. -/
def Obligations.EncryptIsTotal : Prop :=
  ∀ (rid : Nibble) (val rcode : BitVec 8) (tid : BitVec 16) (s : State), ∃ code : Code,
    exec (.cipherEncrypt rid val rcode tid) s = .next (responding s .ok (code.setWidth 32))

/-- R141, R148: the two rotations as integer formulas, and each undoes the other. -/
def Obligations.RotationsAreInverse : Prop :=
  ∀ v : Code,
    (rotl28 v).toNat = (v.toNat <<< 2 ||| v.toNat >>> 26) % 2 ^ 28 ∧
    (rotr28 v).toNat = (v.toNat >>> 2 ||| (v.toNat &&& 3) <<< 26) % 2 ^ 28 ∧
    rotr28 (rotl28 v) = v ∧ rotl28 (rotr28 v) = v

/-- The rounds computed at once agree with the loops that overwrite one list in place, for any tables (42_cipher.md
sections 1 to 3). -/
def Obligations.RoundsAgreeWithInPlaceLoops : Prop :=
  ∀ (p : Config.Params) (r : Nat) (n : Nibbles),
    (decryptRound p r n).toList = decryptRoundInPlace p r n.toList ∧
    (encryptRound p r n).toList = encryptRoundInPlace p r n.toList

/-- The default tables, which the spec itself marks as general knowledge (log entry 1), are the listed ones and meet the
constraints on KEY and IKEY; the other parameters are in their ranges (42_cipher.md section 3, 00_scope.md section 4). -/
def Obligations.DefaultParametersAreLegal : Prop :=
  State.reset.params = defaultParams ∧
  defaultParams.key.toList = [9, 6, 3, 8, 10, 0, 2, 12, 4, 14, 7, 5, 1, 15, 11, 13, 9] ∧
  defaultParams.ikey.toList = [5, 12, 6, 2, 8, 11, 1, 10, 3, 0, 4, 14, 7, 15, 9, 13] ∧
  defaultParams.capacity = 67 ∧ defaultParams.gapLo = 4000 ∧ defaultParams.gapHi = 6000 ∧
  defaultParams.tolReset = 60 ∧ defaultParams.legal

/-- The vector V-C1 in both directions, for the default tables (95_test_vectors.md section 2.4, log entry 1). -/
def Obligations.KnownCipherVector : Prop :=
  ∀ s : State, s.params.key = defaultParams.key → s.params.ikey = defaultParams.ikey →
    exec (.cipherEncrypt 1 1 0 0x1234) s = .next (responding s .ok 0x024B4D96) ∧
    exec (.cipherDecrypt 0x24B4D96) s = .next (responding s .ok 0x12340011)

/-- For every table pair that meets the constraints on KEY and IKEY, decrypt undoes encrypt on values 0 to 9, the rolling
code kept mod 4 (42_cipher.md section 4). -/
def Obligations.RoundTripForLegalTables : Prop :=
  ∀ (p : Config.Params) (rid : Nibble) (val rcode : BitVec 8) (tid : BitVec 16), p.tablesLegal → val.toNat ≤ 9 →
    decryptWith p (encryptWith p rid val rcode tid) = ⟨rid, val.setWidth 4, rcode.setWidth 2, tid⟩

/-- The round trip through the two operations: the code CIPHER_ENCRYPT returns for a value of 0 to 9 decrypts to the
fields it was made from, the rolling code mod 4. Both operations complete in every state of a block built with the same
parameters, whatever they are as long as the tables meet the constraints on KEY and IKEY (42_cipher.md section 4). -/
def Obligations.CipherOperationsRoundTrip : Prop :=
  ∀ (p : Config.Params) (rid : Nibble) (val rcode : BitVec 8) (tid : BitVec 16), p.tablesLegal → val.toNat ≤ 9 →
    ∃ code : Code,
      (∀ s : State, s.params = p →
        exec (.cipherEncrypt rid val rcode tid) s = .next (responding s .ok (code.setWidth 32))) ∧
      (∀ s : State, s.params = p → exec (.cipherDecrypt code) s = .next (responding s .ok
        (BitVec.ofNat 32 (tid.toNat * 2 ^ 16 + rcode.toNat % 4 * 2 ^ 8 + val.toNat * 2 ^ 4 + rid.toNat))))

/-- Out-of-range fields are not refused: a VAL of 10 or more encrypts as 1, and only RCODE mod 4 counts, for any tables
(42_cipher.md section 4). -/
def Obligations.EncryptReducesItsFields : Prop :=
  ∀ (p : Config.Params) (rid : Nibble) (val rcode : BitVec 8) (tid : BitVec 16),
    (10 ≤ val.toNat → encryptWith p rid val rcode tid = encryptWith p rid 1 rcode tid) ∧
    encryptWith p rid val rcode tid = encryptWith p rid val (BitVec.ofNat 8 (rcode.toNat % 4)) tid

/-- CIPHER_DECRYPT completes on every code and its fields stay in range: value 0 to 9, rolling code 0 to 3 with DATA bits
15:10 zero (42_cipher.md section 4). -/
def Obligations.DecryptFieldsAreInRange : Prop :=
  ∀ (code : Code) (s : State), ∃ data : BitVec 32, exec (.cipherDecrypt code) s = .next (responding s .ok data) ∧
    data.toNat / 2 ^ 4 % 2 ^ 4 ≤ 9 ∧ data.toNat / 2 ^ 8 % 2 ^ 8 ≤ 3

/-- Re-encrypting a decrypted code gives it back exactly when some encrypt produces it, for any tables that meet the
constraints on KEY and IKEY (42_cipher.md section 4). -/
def Obligations.ReencryptionFixesEncryptedCodes : Prop :=
  ∀ (p : Config.Params) (code : Code), p.tablesLegal →
    (encryptWith p (decryptWith p code).rid ((decryptWith p code).val.setWidth 8) ((decryptWith p code).rcode.setWidth 8)
        (decryptWith p code).tid = code ↔
      ∃ rid val rcode tid, encryptWith p rid val rcode tid = code)

/-! ### Assembler -/

/-- Disassembling any word and assembling the line on the port the word is delivered on gives the word back (30_encoding.md
section 5). The port of a word whose opcode is unassigned is the model's choice, the host port (DESIGN CHOICE, log entry 5);
how a printed word becomes a line on a port, and which lines are refused, is log entry 10's (DESIGN CHOICE). -/
def Obligations.DisassemblyReassembles : Prop :=
  ∀ (now : Nat) (w : Word), ∃ later,
    assembleLine now ((disassemble w).onPort (deliveryPort w)) = some (later, [.operation (deliveryPort w) w])

/-- The line that disassembly prints for a word, with a port in front, reads back as that line on that port: no digit of
an operand is lost (30_encoding.md section 5; blanks and zeros as in log entry 10). -/
def Obligations.DisassemblyTextReadsBack : Prop :=
  ∀ (port : Port) (w : Word),
    readLine (portLetter port :: ' ' :: (disassemble w).text) = some (some ((disassemble w).onPort port))
end

