-- ==== Sys2Proof/Laws/Decode.lean ====
section
/-! SUPPORT. What the decoder can answer, and the opcode a word must have for it. -/

namespace Sys2Proof

@[simp] theorem opcodeOf_code (o : Opcode) : opcodeOf o.code = some o := by cases o <;> rfl

/-- Only the OPC of an opcode decodes to it. -/
theorem code_of_opcodeOf {b : BitVec 8} {o : Opcode} (h : opcodeOf b = some o) : b = o.code := by
  unfold opcodeOf at h
  split at h <;> cases h <;> rfl

@[simp] theorem readOperands_opcode (o : Opcode) (w : Word) : (readOperands o w).opcode = o := by cases o <;> rfl

/-- Decoding as an opcode answers the operands, exactly when every reserved bit is 0. -/
theorem decodeAs_ok {o : Opcode} {w : Word} {i : Instr} :
    decodeAs o w = .ok i ↔ w &&& o.format.reserved = 0 ∧ i = readOperands o w := by
  unfold decodeAs
  split
  · next h => simp [h, eq_comm]
  · next h => exact ⟨(nomatch ·), fun h' => absurd h'.1 h⟩

/-- What a word that decodes is made of. -/
theorem decode_ok {w : Word} {i : Instr} :
    decode w = .ok i ↔
      opcodeField w = i.opcode.code ∧ w &&& i.opcode.format.reserved = 0 ∧ i = readOperands i.opcode w := by
  unfold decode
  constructor
  · intro h
    match ho : opcodeOf (opcodeField w) with
    | none => simp [ho] at h
    | some o =>
      simp only [ho, decodeAs_ok] at h
      have : i.opcode = o := by rw [h.2, readOperands_opcode]
      rw [this]
      exact ⟨code_of_opcodeOf ho, h⟩
  · rintro ⟨h1, h2⟩
    rw [h1, opcodeOf_code]
    exact decodeAs_ok.mpr h2

/-- A port accepts exactly the words that decode to an operation of that port. -/
theorem accept_ok {port : Port} {w : Word} {i : Instr} : accept port w = .ok i ↔ decode w = .ok i ∧ i.port = port := by
  unfold accept decode
  match ho : opcodeOf (opcodeField w) with
  | none => simp
  | some o =>
    simp only
    split
    · next hp =>
      constructor
      · intro h
        refine ⟨h, ?_⟩
        rw [Instr.port, (decodeAs_ok.mp h).2, readOperands_opcode, hp]
      · exact And.left
    · next hp =>
      constructor
      · intro h
        cases h
      · rintro ⟨h, hi⟩
        rw [Instr.port, (decodeAs_ok.mp h).2, readOperands_opcode] at hi
        exact absurd hi hp

/-- A concatenation as a number. -/
theorem toNat_append_add {n m : Nat} (x : BitVec n) (y : BitVec m) : (x ++ y).toNat = x.toNat * 2 ^ m + y.toNat := by
  rw [BitVec.toNat_append, ← Nat.shiftLeft_add_eq_or_of_lt y.isLt, Nat.shiftLeft_eq]

/-! ### The fields of an encoded word -/

section
variable (o : BitVec 8)

@[simp] theorem opcodeField_wordN : opcodeField (wordN o) = o := by
  rw [opcodeField, wordN, BitVec.extractLsb'_append_eq_of_le (by decide)]
  exact BitVec.extractLsb'_eq_self

@[simp] theorem opcodeField_wordT (t : Micros) : opcodeField (wordT o t) = o := by
  rw [opcodeField, wordT, BitVec.extractLsb'_append_eq_of_le (by decide), BitVec.extractLsb'_append_eq_of_le (by decide)]
  exact BitVec.extractLsb'_eq_self

@[simp] theorem opcodeField_wordB (b : BitVec 8) : opcodeField (wordB o b) = o := by
  rw [opcodeField, wordB, BitVec.extractLsb'_append_eq_of_le (by decide), BitVec.extractLsb'_append_eq_of_le (by decide)]
  exact BitVec.extractLsb'_eq_self

@[simp] theorem opcodeField_wordC (c : Code) : opcodeField (wordC o c) = o := by
  rw [opcodeField, wordC, BitVec.extractLsb'_append_eq_of_le (by decide), BitVec.extractLsb'_append_eq_of_le (by decide)]
  exact BitVec.extractLsb'_eq_self

@[simp] theorem opcodeField_wordE (tid : BitVec 16) (rcode val : BitVec 8) (rid : Nibble) :
    opcodeField (wordE o tid rcode val rid) = o := by
  rw [opcodeField, wordE, BitVec.extractLsb'_append_eq_of_le (by decide), BitVec.extractLsb'_append_eq_of_le (by decide),
    BitVec.extractLsb'_append_eq_of_le (by decide), BitVec.extractLsb'_append_eq_of_le (by decide),
    BitVec.extractLsb'_append_eq_of_le (by decide)]
  exact BitVec.extractLsb'_eq_self

@[simp] theorem extract_wordT (t : Micros) : (wordT o t).extractLsb' 0 32 = t := BitVec.extractLsb'_append_eq_right

@[simp] theorem extract_wordB (b : BitVec 8) : (wordB o b).extractLsb' 0 8 = b := BitVec.extractLsb'_append_eq_right

@[simp] theorem extract_wordC (c : Code) : (wordC o c).extractLsb' 0 28 = c := BitVec.extractLsb'_append_eq_right

@[simp] theorem extract_wordE_rid (tid : BitVec 16) (rcode val : BitVec 8) (rid : Nibble) :
    (wordE o tid rcode val rid).extractLsb' 0 4 = rid := BitVec.extractLsb'_append_eq_right

@[simp] theorem extract_wordE_val (tid : BitVec 16) (rcode val : BitVec 8) (rid : Nibble) :
    (wordE o tid rcode val rid).extractLsb' 4 8 = val := by
  rw [wordE, BitVec.extractLsb'_append_eq_of_le (by decide)]
  exact BitVec.extractLsb'_append_eq_right

@[simp] theorem extract_wordE_rcode (tid : BitVec 16) (rcode val : BitVec 8) (rid : Nibble) :
    (wordE o tid rcode val rid).extractLsb' 12 8 = rcode := by
  rw [wordE, BitVec.extractLsb'_append_eq_of_le (by decide), BitVec.extractLsb'_append_eq_of_le (by decide)]
  exact BitVec.extractLsb'_append_eq_right

@[simp] theorem extract_wordE_tid (tid : BitVec 16) (rcode val : BitVec 8) (rid : Nibble) :
    (wordE o tid rcode val rid).extractLsb' 20 16 = tid := by
  rw [wordE, BitVec.extractLsb'_append_eq_of_le (by decide), BitVec.extractLsb'_append_eq_of_le (by decide),
    BitVec.extractLsb'_append_eq_of_le (by decide)]
  exact BitVec.extractLsb'_append_eq_right

end

/-! ### The reserved bits -/

/-- How many low bits the operands of a format take (R63 to R65, R67, R68). -/
def Format.operandWidth : Format → Nat
  | .n => 0
  | .t => 32
  | .b => 8
  | .c => 28
  | .e => 36

theorem Format.reserved_getLsbD (f : Format) (i : Nat) (h : i < 64) :
    f.reserved.getLsbD i = (decide (f.operandWidth ≤ i) && decide (i < 56)) := by
  revert i
  cases f <;> decide

/-- The reserved bits of a word are all 0 exactly when each bit between the operands and the opcode is. -/
theorem Format.reserved_zero_iff (f : Format) (w : Word) :
    w &&& f.reserved = 0 ↔ ∀ i, f.operandWidth ≤ i → i < 56 → w.getLsbD i = false := by
  constructor
  · intro h i hk hi
    have hb := congrArg (BitVec.getLsbD · i) h
    simpa [f.reserved_getLsbD i (by omega), hk, hi] using hb
  · intro h
    apply BitVec.eq_of_getLsbD_eq
    intro i hi
    rw [BitVec.getLsbD_and, f.reserved_getLsbD i hi]
    by_cases hk : f.operandWidth ≤ i ∧ i < 56
    · simp [h i hk.1 hk.2]
    · have : (decide (f.operandWidth ≤ i) && decide (i < 56)) = false := by simpa using hk
      simp [this]

theorem wordN_reserved (o : BitVec 8) : wordN o &&& Format.reserved .n = 0 := by
  rw [Format.reserved_zero_iff]
  intro i _ hi
  simp only [wordN, BitVec.getLsbD_append, BitVec.getLsbD_zero]
  simp [hi]

theorem wordT_reserved (o : BitVec 8) (t : Micros) : wordT o t &&& Format.reserved .t = 0 := by
  rw [Format.reserved_zero_iff]
  intro i (hk : 32 ≤ i) hi
  simp only [wordT, BitVec.getLsbD_append, BitVec.getLsbD_zero]
  simp [show ¬ i < 32 by omega, show i - 32 < 24 by omega]

theorem wordB_reserved (o b : BitVec 8) : wordB o b &&& Format.reserved .b = 0 := by
  rw [Format.reserved_zero_iff]
  intro i (hk : 8 ≤ i) hi
  simp only [wordB, BitVec.getLsbD_append, BitVec.getLsbD_zero]
  simp [show ¬ i < 8 by omega, show i - 8 < 48 by omega]

theorem wordC_reserved (o : BitVec 8) (c : Code) : wordC o c &&& Format.reserved .c = 0 := by
  rw [Format.reserved_zero_iff]
  intro i (hk : 28 ≤ i) hi
  simp only [wordC, BitVec.getLsbD_append, BitVec.getLsbD_zero]
  simp [show ¬ i < 28 by omega, show i - 28 < 28 by omega]

theorem wordE_reserved (o : BitVec 8) (tid : BitVec 16) (rcode val : BitVec 8) (rid : Nibble) :
    wordE o tid rcode val rid &&& Format.reserved .e = 0 := by
  rw [Format.reserved_zero_iff]
  intro i (hk : 36 ≤ i) hi
  simp only [wordE, BitVec.getLsbD_append, BitVec.getLsbD_zero]
  simp [show ¬ i < 4 by omega, show ¬ i - 4 < 8 by omega, show ¬ i - 4 - 8 < 8 by omega,
    show ¬ i - 4 - 8 - 8 < 16 by omega, show i - 4 - 8 - 8 - 16 < 20 by omega]

/-! A word whose reserved bits are 0 is made of its opcode and its operands. -/

theorem wordN_of_reserved {w : Word} (h : w &&& Format.reserved .n = 0) : wordN (opcodeField w) = w := by
  rw [Format.reserved_zero_iff] at h
  apply BitVec.eq_of_getLsbD_eq
  intro i hi
  simp only [wordN, opcodeField, BitVec.getLsbD_append, BitVec.getLsbD_extractLsb', BitVec.getLsbD_zero]
  split
  · next hlt => exact (h i (Nat.zero_le i) hlt).symm
  · simp [show i - 56 < 8 by omega, show 56 + (i - 56) = i by omega]

theorem wordT_of_reserved {w : Word} (h : w &&& Format.reserved .t = 0) :
    wordT (opcodeField w) (w.extractLsb' 0 32) = w := by
  rw [Format.reserved_zero_iff] at h
  apply BitVec.eq_of_getLsbD_eq
  intro i hi
  simp only [wordT, opcodeField, BitVec.getLsbD_append, BitVec.getLsbD_extractLsb', BitVec.getLsbD_zero]
  by_cases h1 : i < 32
  · simp [h1]
  · by_cases h2 : i < 56
    · simp [h1, show i - 32 < 24 by omega, h i (show 32 ≤ i by omega) h2]
    · simp [h1, show ¬ i - 32 < 24 by omega, show i - 32 - 24 < 8 by omega, show 56 + (i - 32 - 24) = i by omega]

theorem wordB_of_reserved {w : Word} (h : w &&& Format.reserved .b = 0) :
    wordB (opcodeField w) (w.extractLsb' 0 8) = w := by
  rw [Format.reserved_zero_iff] at h
  apply BitVec.eq_of_getLsbD_eq
  intro i hi
  simp only [wordB, opcodeField, BitVec.getLsbD_append, BitVec.getLsbD_extractLsb', BitVec.getLsbD_zero]
  by_cases h1 : i < 8
  · simp [h1]
  · by_cases h2 : i < 56
    · simp [h1, show i - 8 < 48 by omega, h i (show 8 ≤ i by omega) h2]
    · simp [h1, show ¬ i - 8 < 48 by omega, show i - 8 - 48 < 8 by omega, show 56 + (i - 8 - 48) = i by omega]

theorem wordC_of_reserved {w : Word} (h : w &&& Format.reserved .c = 0) :
    wordC (opcodeField w) (w.extractLsb' 0 28) = w := by
  rw [Format.reserved_zero_iff] at h
  apply BitVec.eq_of_getLsbD_eq
  intro i hi
  simp only [wordC, opcodeField, BitVec.getLsbD_append, BitVec.getLsbD_extractLsb', BitVec.getLsbD_zero]
  by_cases h1 : i < 28
  · simp [h1]
  · by_cases h2 : i < 56
    · simp [h1, show i - 28 < 28 by omega, h i (show 28 ≤ i by omega) h2]
    · simp [h1, show ¬ i - 28 < 28 by omega, show i - 28 - 28 < 8 by omega, show 56 + (i - 28 - 28) = i by omega]

theorem wordE_of_reserved {w : Word} (h : w &&& Format.reserved .e = 0) :
    wordE (opcodeField w) (w.extractLsb' 20 16) (w.extractLsb' 12 8) (w.extractLsb' 4 8) (w.extractLsb' 0 4) = w := by
  rw [Format.reserved_zero_iff] at h
  apply BitVec.eq_of_getLsbD_eq
  intro i hi
  simp only [wordE, opcodeField, BitVec.getLsbD_append, BitVec.getLsbD_extractLsb', BitVec.getLsbD_zero]
  by_cases h1 : i < 4
  · simp [h1]
  by_cases h2 : i < 12
  · simp [h1, show i - 4 < 8 by omega, show 4 + (i - 4) = i by omega]
  by_cases h3 : i < 20
  · simp [h1, show ¬ i - 4 < 8 by omega, show i - 4 - 8 < 8 by omega, show 12 + (i - 4 - 8) = i by omega]
  by_cases h4 : i < 36
  · simp [h1, show ¬ i - 4 < 8 by omega, show ¬ i - 4 - 8 < 8 by omega, show i - 4 - 8 - 8 < 16 by omega,
      show 20 + (i - 4 - 8 - 8) = i by omega]
  by_cases h5 : i < 56
  · simp [h1, show ¬ i - 4 < 8 by omega, show ¬ i - 4 - 8 < 8 by omega, show ¬ i - 4 - 8 - 8 < 16 by omega,
      show i - 4 - 8 - 8 - 16 < 20 by omega, h i (show 36 ≤ i by omega) h5]
  · simp [h1, show ¬ i - 4 < 8 by omega, show ¬ i - 4 - 8 < 8 by omega, show ¬ i - 4 - 8 - 8 < 16 by omega,
      show ¬ i - 4 - 8 - 8 - 16 < 20 by omega, show i - 4 - 8 - 8 - 16 - 20 < 8 by omega,
      show 56 + (i - 4 - 8 - 8 - 16 - 20) = i by omega]

end Sys2Proof
end

