-- ==== Sys2Proof/Laws/Cipher.lean ====
section
/-! SUPPORT. The algebra of the cipher's steps: each has an inverse, for any legal tables. -/

namespace Sys2Proof.Machine

open Sys2Proof.Config

@[simp] theorem splitNibbles_packNibbles (n : Nibbles) : splitNibbles (packNibbles n) = n := by
  cases n with | mk n0 n1 n2 n3 n4 n5 n6 =>
  simp only [splitNibbles, packNibbles, Nibbles.mk.injEq]
  refine ⟨?_, ?_, ?_, ?_, ?_, ?_, ?_⟩ <;> apply BitVec.eq_of_toNat_eq <;>
    simp only [BitVec.extractLsb'_toNat, toNat_append_add, Nat.shiftRight_eq_div_pow] <;> omega

@[simp] theorem whiten_whiten (n : Nibbles) : whiten (whiten n) = n := by
  cases n
  simp [whiten]

@[simp] theorem decryptRound_n6 (p : Params) (r : Nat) (n : Nibbles) : (decryptRound p r n).n6 = n.n6 := rfl

@[simp] theorem encryptRound_n6 (p : Params) (s : Nat) (n : Nibbles) : (encryptRound p s n).n6 = n.n6 := rfl

/-- The inverse table undoes the table. -/
theorem ikey_key {p : Params} (hp : p.tablesLegal) (i : Nat) (h : i < 16) :
    p.ikey[p.key[i].toNat] = BitVec.ofNat 4 i := by
  have := hp.1 ⟨i, h⟩
  simpa [BitVec.ofFin_eq_ofNat] using this

/-- Decrypt round 1 undoes the substitution of encrypt round 0 (R151). -/
theorem unsubstitute_one_substitute_zero {p : Params} (hp : p.tablesLegal) (x : Nibble) :
    unsubstitute p 1 (substitute p 0 x) = x := by
  have hx := x.isLt
  unfold unsubstitute substitute
  by_cases h : x.toNat = 15
  · have e : p.key[x.toNat + 1 - 0]'(by omega) = p.key[0] := by
      rw [← hp.2]
      simp [h]
    rw [e, ikey_key hp 0 (by omega)]
    apply BitVec.eq_of_toNat_eq
    simp [h]
  · simp only [Nat.sub_zero]
    rw [ikey_key hp (x.toNat + 1) (by omega)]
    apply BitVec.eq_of_toNat_eq
    simp
    omega

/-- Decrypt round 0 undoes the substitution of encrypt round 1 (R150). -/
theorem unsubstitute_zero_substitute_one {p : Params} (hp : p.tablesLegal) (x : Nibble) :
    unsubstitute p 0 (substitute p 1 x) = x := by
  have hx := x.isLt
  unfold unsubstitute substitute
  simp only [Nat.add_sub_cancel]
  rw [ikey_key hp x.toNat (by omega)]
  simp

/-- Decrypt round `r` undoes encrypt round `s` when their substitutions do. -/
theorem decryptRound_encryptRound {p : Params} {r s : Nat} (h : ∀ x, unsubstitute p r (substitute p s x) = x)
    (n : Nibbles) : decryptRound p r (encryptRound p s n) = n := by
  cases n
  simp [decryptRound, encryptRound, h]

end Sys2Proof.Machine
end

