-- ==== Sys2Proof/Laws/Memory.lean ====
section
/-! SUPPORT. The laws of the pulse buffer: what a write leaves at its slot and at every other, and that it keeps the
canonical form. -/

namespace Sys2Proof.Machine

theorem Memory.wfFrom_cons {hi lo a : Nat} {v : Micros} {m : Memory} :
    Memory.wfFrom hi lo ((a, v) :: m) = true ↔ lo ≤ a ∧ a < hi ∧ v ≠ 0 ∧ Memory.wfFrom hi (a + 1) m = true := by
  simp [Memory.wfFrom, and_assoc]

theorem Memory.wfFrom_mono {hi : Nat} : ∀ {m : Memory} {lo lo' : Nat}, lo' ≤ lo →
    Memory.wfFrom hi lo m = true → Memory.wfFrom hi lo' m = true
  | [], _, _, _, _ => rfl
  | (_, _) :: _, _, _, h, hm => by
    rw [Memory.wfFrom_cons] at hm ⊢
    exact ⟨h.trans hm.1, hm.2⟩

/-- A slot below every listed one reads 0. -/
theorem Memory.read_below {hi a : Nat} : ∀ {m : Memory} {lo : Nat}, a < lo → Memory.wfFrom hi lo m = true → m.read a = 0
  | [], _, _, _ => rfl
  | (b, v) :: m, lo, h, hm => by
    rw [Memory.wfFrom_cons] at hm
    have hb : a ≠ b := by omega
    simpa [Memory.read, hb] using Memory.read_below (lo := b + 1) (by omega) hm.2.2.2

theorem Memory.read_list {hi lo a x : Nat} {v : Micros} {m : Memory} (ha : a < lo)
    (hm : Memory.wfFrom hi lo m = true) : (Memory.list a v m).read x = if x = a then v else m.read x := by
  unfold Memory.list
  split
  · next h =>
    subst h
    split
    · next hx =>
      subst hx
      exact Memory.read_below ha hm
    · rfl
  · rfl

/-- Reading after a write to a canonical buffer: the value written at its slot, and what was there at every other. -/
theorem Memory.read_write {hi a x : Nat} {v : Micros} : ∀ {m : Memory} {lo : Nat}, Memory.wfFrom hi lo m = true →
    (m.write a v).read x = if x = a then v else m.read x
  | [], _, _ => by
    simpa [Memory.write] using Memory.read_list (hi := hi) (lo := a + 1) (m := []) (by omega) rfl
  | (b, u) :: m, lo, hm => by
    have hm' := Memory.wfFrom_cons.mp hm
    unfold Memory.write
    split
    · next h =>
      exact Memory.read_list h (Memory.wfFrom_cons.mpr ⟨le_refl b, hm'.2⟩)
    · split
      · next h =>
        subst h
        rw [Memory.read_list (Nat.lt_succ_self a) hm'.2.2.2]
        simp only [Memory.read]
        split <;> rfl
      · next hlt hne =>
        simp only [Memory.read]
        split
        · next hx =>
          have hxa : x ≠ a := by omega
          simp [hxa]
        · exact Memory.read_write hm'.2.2.2

theorem Memory.wfFrom_list {hi lo a : Nat} {v : Micros} {m : Memory} (h : lo ≤ a) (ha : a < hi)
    (hm : Memory.wfFrom hi (a + 1) m = true) : Memory.wfFrom hi lo (Memory.list a v m) = true := by
  unfold Memory.list
  split
  · exact Memory.wfFrom_mono (by omega) hm
  · next hv => exact Memory.wfFrom_cons.mpr ⟨h, ha, hv, hm⟩

theorem Memory.wfFrom_write {hi a : Nat} {v : Micros} (ha : a < hi) : ∀ {m : Memory} {lo : Nat}, lo ≤ a →
    Memory.wfFrom hi lo m = true → Memory.wfFrom hi lo (m.write a v) = true
  | [], _, h, _ => Memory.wfFrom_list h ha rfl
  | (b, u) :: m, lo, h, hm => by
    have hm' := Memory.wfFrom_cons.mp hm
    unfold Memory.write
    split
    · next hlt => exact Memory.wfFrom_list h ha (Memory.wfFrom_cons.mpr ⟨hlt, hm'.2⟩)
    · split
      · next heq =>
        subst heq
        exact Memory.wfFrom_list h ha hm'.2.2.2
      · exact Memory.wfFrom_cons.mpr ⟨hm'.1, hm'.2.1, hm'.2.2.1, Memory.wfFrom_write ha (by omega) hm'.2.2.2⟩

/-- A write inside the buffer keeps the canonical form. -/
theorem Memory.wf_write {hi a : Nat} {v : Micros} {m : Memory} (ha : a < hi) (hm : m.wf hi = true) :
    (m.write a v).wf hi = true :=
  Memory.wfFrom_write ha (Nat.zero_le a) hm

/-- Reading the slot just written. -/
theorem Memory.read_write_same {hi a : Nat} {v : Micros} {m : Memory} (hm : m.wf hi = true) :
    (m.write a v).read a = v := by
  rw [Memory.read_write hm, if_pos rfl]

/-- Reading any other slot. -/
theorem Memory.read_write_other {hi a x : Nat} {v : Micros} {m : Memory} (hm : m.wf hi = true) (h : x ≠ a) :
    (m.write a v).read x = m.read x := by
  rw [Memory.read_write hm, if_neg h]

/-- Two canonical buffers that read alike are equal. -/
theorem Memory.ext_read {hi : Nat} : ∀ {m m' : Memory} {lo : Nat}, Memory.wfFrom hi lo m = true →
    Memory.wfFrom hi lo m' = true → (∀ a, m.read a = m'.read a) → m = m'
  | [], [], _, _, _, _ => rfl
  | [], (b, v) :: m', _, _, hm', h => by
    have := h b
    simp [Memory.read] at this
    exact absurd this.symm (Memory.wfFrom_cons.mp hm').2.2.1
  | (b, v) :: m, [], _, hm, _, h => by
    have := h b
    simp [Memory.read] at this
    exact absurd this (Memory.wfFrom_cons.mp hm).2.2.1
  | (b, v) :: m, (b', v') :: m', lo, hm, hm', h => by
    have w := Memory.wfFrom_cons.mp hm
    have w' := Memory.wfFrom_cons.mp hm'
    have hb : b = b' := by
      rcases Nat.lt_trichotomy b b' with hlt | heq | hgt
      · have e := h b
        rw [Memory.read_below (m := (b', v') :: m') hlt (Memory.wfFrom_cons.mpr ⟨le_refl b', w'.2⟩)] at e
        simp [Memory.read] at e
        exact absurd e w.2.2.1
      · exact heq
      · have e := h b'
        rw [Memory.read_below (m := (b, v) :: m) hgt (Memory.wfFrom_cons.mpr ⟨le_refl b, w.2⟩)] at e
        simp [Memory.read] at e
        exact absurd e.symm w'.2.2.1
    subst hb
    have hv : v = v' := by simpa [Memory.read] using h b
    subst hv
    have hrest : m = m' := by
      refine Memory.ext_read w.2.2.2 w'.2.2.2 fun a => ?_
      by_cases ha : a = b
      · subst ha
        rw [Memory.read_below (Nat.lt_succ_self a) w.2.2.2, Memory.read_below (Nat.lt_succ_self a) w'.2.2.2]
      · simpa [Memory.read, ha] using h a
    rw [hrest]

/-- A slot of the buffer reads as it holds, one outside has no value. -/
theorem readSlot_cases (p : Config.Params) (m : Memory) (a : Nat) :
    (a < p.capacity ∧ readSlot p m a = some (m.read a)) ∨ (p.capacity ≤ a ∧ readSlot p m a = none) := by
  unfold readSlot
  split
  · next h => exact .inl ⟨h, rfl⟩
  · next h => exact .inr ⟨by omega, rfl⟩

theorem readSlot_inside {p : Config.Params} {m : Memory} {a : Nat} (h : a < p.capacity) :
    readSlot p m a = some (m.read a) := if_pos h

end Sys2Proof.Machine
end

