-- ==== Sys2Proof/Laws/PerInstr.lean ====
section
/-! SUPPORT. Facts about every operation as syntax, one lemma for each constructor of Instr. -/

namespace Sys2Proof.Laws.EncodedOpcode

/-- The opcode field of an encoded operation is its opcode's OPC (R61, R70). -/
def Statement (i : Instr) : Prop := opcodeField (encode i) = i.opcode.code

theorem edge (time : Micros) : Statement (.edge time) := opcodeField_wordT _ _
theorem rxEnable (pin : BitVec 8) : Statement (.rxEnable pin) := opcodeField_wordB _ _
theorem rxRearm : Statement .rxRearm := opcodeField_wordN _
theorem rxDisable : Statement .rxDisable := opcodeField_wordN _
theorem rxSetTol (pct : BitVec 8) : Statement (.rxSetTol pct) := opcodeField_wordB _ _
theorem rxAvailable : Statement .rxAvailable := opcodeField_wordN _
theorem rxResetAvailable : Statement .rxResetAvailable := opcodeField_wordN _
theorem rxGetValue : Statement .rxGetValue := opcodeField_wordN _
theorem rxGetBitlen : Statement .rxGetBitlen := opcodeField_wordN _
theorem rxGetDelay : Statement .rxGetDelay := opcodeField_wordN _
theorem rxGetRaw (idx : BitVec 8) : Statement (.rxGetRaw idx) := opcodeField_wordB _ _
theorem rxGetConfig : Statement .rxGetConfig := opcodeField_wordN _
theorem cipherDecrypt (code : Code) : Statement (.cipherDecrypt code) := opcodeField_wordC _ _
theorem cipherEncrypt (rid : Nibble) (val rcode : BitVec 8) (tid : BitVec 16) :
    Statement (.cipherEncrypt rid val rcode tid) := opcodeField_wordE _ _ _ _ _

end Sys2Proof.Laws.EncodedOpcode
end

