-- ==== Sys2Proof/Laws/Receive.lean ====
section
/-! SUPPORT. What the operations of the receive path can do, said once each: reading the pairs of a frame, DECODE, and
EDGE. -/

namespace Sys2Proof.Machine

open Sys2Proof.Config

theorem classifyDuration_boundary {p : Params} {d : Micros} :
    classifyDuration p d = .boundary ↔ p.gapLo < d.toNat ∧ d.toNat < p.gapHi := by
  unfold classifyDuration
  split <;> [simp_all; split] <;> simp_all

theorem classifyDuration_longGap {p : Params} {d : Micros} :
    classifyDuration p d = .longGap ↔ p.gapHi < d.toNat := by
  unfold classifyDuration
  split
  · simp; omega
  · split <;> simp_all

theorem classifyDuration_ordinary {p : Params} {d : Micros} :
    classifyDuration p d = .ordinary ↔ ¬ (p.gapLo < d.toNat ∧ d.toNat < p.gapHi) ∧ d.toNat ≤ p.gapHi := by
  unfold classifyDuration
  split
  · simp_all
  · split
    · simp; omega
    · simp_all

@[simp] theorem guardedIndex_zero (p : Params) : guardedIndex p 0 = 0 := by
  unfold guardedIndex
  split <;> rfl

@[simp] theorem guardedRepeat_zero (p : Params) (cc : Nat) : guardedRepeat p cc 0 = 0 := by
  unfold guardedRepeat
  split <;> rfl

/-- The overflow guard keeps the slot inside the buffer (R108). -/
theorem guardedIndex_lt {p : Params} (h : 0 < p.capacity) (cc : Nat) : guardedIndex p cc < p.capacity := by
  unfold guardedIndex
  split <;> omega

/-- Below the capacity the guard does nothing. -/
theorem guarded_inside {p : Params} {cc : Nat} (h : cc < p.capacity) (rc : Nat) :
    guardedIndex p cc = cc ∧ guardedRepeat p cc rc = rc :=
  ⟨if_neg (Nat.not_le_of_lt h), if_neg (Nat.not_le_of_lt h)⟩

/-- A pair is read as a bit only when it lies in the two windows of that bit. -/
theorem classifyPair_some {delay tol : Nat} {a b : Micros} {bit : Bool} (h : classifyPair delay tol a b = some bit) :
    inWindow tol (if bit then 3 * delay else delay) a = true ∧
      inWindow tol (if bit then delay else 3 * delay) b = true := by
  unfold classifyPair at h
  split at h
  · next hw =>
    cases h
    simpa using hw
  · split at h
    · next hw =>
      cases h
      simpa using hw
    · cases h

/-- The accumulator counts: a bit shifted in doubles and adds, mod 2^32. -/
theorem shiftIn_ofNat (n : Nat) (bit : Bool) : shiftIn (BitVec.ofNat 32 n) bit = BitVec.ofNat 32 (2 * n + bit.toNat) := by
  have h : ∀ x : BitVec 32, shiftIn x bit = x + x + BitVec.ofNat 32 bit.toNat := by
    intro x
    have h1 : x <<< 1 ||| (BitVec.ofBool bit).setWidth 32 = x <<< 1 + (BitVec.ofBool bit).setWidth 32 := by
      rw [BitVec.add_eq_or_of_and_eq_zero]
      apply BitVec.eq_of_getLsbD_eq
      intro i hi
      cases i <;> cases bit <;> simp [BitVec.getLsbD_one]
    rw [shiftIn, h1]
    cases bit <;> simp <;> bv_omega
  rw [h]
  apply BitVec.eq_of_toNat_eq
  simp
  omega

/-- A frame whose pairs stand for a list of bits reads as the accumulator with those bits shifted in. -/
theorem readPairs_code {p : Params} {m : Memory} {delay tol : Nat} : ∀ (bits : List Bool) (i : Nat) (acc : BitVec 32),
    i + 2 * bits.length ≤ p.capacity →
    (∀ k bit, bits[k]? = some bit → classifyPair delay tol (m.read (i + 2 * k)) (m.read (i + 2 * k + 1)) = some bit) →
    readPairs p m delay tol bits.length i acc = .code (bits.foldl shiftIn acc)
  | [], _, _, _, _ => rfl
  | bit :: bits, i, acc, hi, h => by
    have h0 := h 0 bit rfl
    simp only [List.length_cons] at hi
    simp only [List.length_cons, readPairs, readSlot_inside (show i < p.capacity by omega),
      readSlot_inside (show i + 1 < p.capacity by omega)]
    rw [show classifyPair delay tol (m.read i) (m.read (i + 1)) = some bit by simpa using h0]
    refine readPairs_code bits (i + 2) (shiftIn acc bit) (by omega) fun k b hk => ?_
    have := h (k + 1) b (by simpa using hk)
    rwa [show i + 2 * (k + 1) = i + 2 + 2 * k by omega] at this

/-- A frame inside the buffer with a pair that fits neither class reads as a mismatch. -/
theorem readPairs_mismatch {p : Params} {m : Memory} {delay tol : Nat} : ∀ (pairs i : Nat) (acc : BitVec 32),
    i + 2 * pairs ≤ p.capacity →
    (∃ k, k < pairs ∧ classifyPair delay tol (m.read (i + 2 * k)) (m.read (i + 2 * k + 1)) = none) →
    readPairs p m delay tol pairs i acc = .mismatch
  | 0, _, _, _, ⟨_, hk, _⟩ => absurd hk (Nat.not_lt_zero _)
  | pairs + 1, i, acc, hi, ⟨k, hk, hc⟩ => by
    simp only [readPairs, readSlot_inside (show i < p.capacity by omega),
      readSlot_inside (show i + 1 < p.capacity by omega)]
    match hb : classifyPair delay tol (m.read i) (m.read (i + 1)) with
    | none => rfl
    | some bit =>
      simp only
      obtain _ | k := k
      · rw [show m.read (i + 2 * 0) = m.read i from rfl, hb] at hc
        cases hc
      · refine readPairs_mismatch pairs (i + 2) (shiftIn acc bit) (by omega) ⟨k, by omega, ?_⟩
        rwa [show i + 2 * (k + 1) = i + 2 + 2 * k by omega] at hc

/-- A frame inside the buffer reads as a code or as a mismatch. -/
theorem readPairs_inside {p : Params} {m : Memory} {delay tol : Nat} : ∀ (pairs i : Nat) (acc : BitVec 32),
    i + 2 * pairs ≤ p.capacity →
    (∃ value, readPairs p m delay tol pairs i acc = .code value) ∨ readPairs p m delay tol pairs i acc = .mismatch
  | 0, _, acc, _ => .inl ⟨acc, rfl⟩
  | pairs + 1, i, acc, hi => by
    simp only [readPairs, readSlot_inside (show i < p.capacity by omega),
      readSlot_inside (show i + 1 < p.capacity by omega)]
    match classifyPair delay tol (m.read i) (m.read (i + 1)) with
    | none => exact .inr rfl
    | some bit => exact readPairs_inside pairs (i + 2) (shiftIn acc bit) (by omega)

/-- A frame read as a code has every pair classified. -/
theorem readPairs_classified {p : Params} {m : Memory} {delay tol : Nat} : ∀ (pairs i : Nat) (acc value : BitVec 32),
    readPairs p m delay tol pairs i acc = .code value → ∀ k, k < pairs →
    ∃ bit, classifyPair delay tol (m.read (i + 2 * k)) (m.read (i + 2 * k + 1)) = some bit
  | 0, _, _, _, _, _, hk => absurd hk (Nat.not_lt_zero _)
  | pairs + 1, i, acc, value, h, k, hk => by
    rcases readSlot_cases p m i with ⟨_, h1⟩ | ⟨_, h1⟩ <;> simp only [readPairs, h1] at h
    · rcases readSlot_cases p m (i + 1) with ⟨_, h2⟩ | ⟨_, h2⟩ <;> simp only [h2] at h
      · match hb : classifyPair delay tol (m.read i) (m.read (i + 1)) with
        | none => simp [hb] at h
        | some bit =>
          simp only [hb] at h
          obtain _ | k := k
          · exact ⟨bit, hb⟩
          · have := readPairs_classified pairs (i + 2) _ value h k (by omega)
            rwa [show i + 2 + 2 * k = i + 2 * (k + 1) by omega] at this
      · cases h
    · cases h

/-- DECODE, when it completes, leaves the state or publishes a frame that read as a code. -/
theorem decodeFrame_cases {p : Params} {n : Nat} {s t : State} (h : decodeFrame p n s = .next t) :
    t = s ∨ ∃ value, readFrame p s n = .code value ∧ minChanges < n ∧ t = s.publish value (n / 2) (frameDelay s.buf) := by
  unfold decodeFrame at h
  match hr : readFrame p s n with
  | .code value =>
    simp only [hr, Host.Outcome.next.injEq] at h
    split at h
    · next hn => exact .inr ⟨value, rfl, hn, h.symm⟩
    · exact .inl h.symm
  | .mismatch =>
    simp only [hr, Host.Outcome.next.injEq] at h
    exact .inl h.symm
  | .outside slot => simp [hr] at h

/-- DECODE of a frame inside the buffer completes. -/
theorem decodeFrame_inside {p : Params} {n : Nat} {s : State} (h : n < p.capacity) :
    ∃ t, decodeFrame p n s = .next t := by
  unfold decodeFrame
  rcases readPairs_inside (p := p) (m := s.buf) (delay := frameDelay s.buf)
    (tol := frameTol (frameDelay s.buf) s.tolPct) (n / 2) 1 0 (by omega) with ⟨value, hv⟩ | hv <;>
    simp only [readFrame, hv] <;> exact ⟨_, rfl⟩

/-- What EDGE can do when it completes: be dropped; store after a decode that left or published; store a first boundary, a
long gap or an ordinary duration. -/
theorem edgeWith_cases {p : Params} {time : Micros} {s t : State} (h : edgeWith p time s = .next t) :
    (s.rxEn = false ∧ t = { s with response := none }) ∨
    (s.rxEn = true ∧ classifyDuration p (duration s time) = .boundary ∧ s.rc.toNat = 1 ∧
      ∃ r, decodeFrame p (frameLength s) s = .next r ∧ t = storeDuration p 0 0 (duration s time) time r) ∨
    (s.rxEn = true ∧ classifyDuration p (duration s time) = .boundary ∧ s.rc.toNat ≠ 1 ∧
      t = storeDuration p 0 (s.rc.toNat + 1) (duration s time) time s) ∨
    (s.rxEn = true ∧ classifyDuration p (duration s time) = .longGap ∧
      t = storeDuration p 0 s.rc.toNat (duration s time) time s) ∨
    (s.rxEn = true ∧ classifyDuration p (duration s time) = .ordinary ∧
      t = storeDuration p s.cc.toNat s.rc.toNat (duration s time) time s) := by
  unfold edgeWith at h
  split at h
  · next hen =>
    split at h
    · next hc =>
      unfold edgeBoundary at h
      split at h
      · next hrc =>
        split at h
        · next r hr => exact .inr (.inl ⟨hen, hc, by omega, r, hr, by cases h; rfl⟩)
        · cases h
        · cases h
      · next hrc => exact .inr (.inr (.inl ⟨hen, hc, by omega, by cases h; rfl⟩))
    · next hc => exact .inr (.inr (.inr (.inl ⟨hen, hc, by cases h; rfl⟩)))
    · next hc => exact .inr (.inr (.inr (.inr ⟨hen, hc, by cases h; rfl⟩)))
  · next hen =>
    unfold dropOperation at h
    cases h
    exact .inl ⟨by simpa using hen, rfl⟩

/-- EDGE completes in every state whose change count is at most the capacity. -/
theorem edgeWith_completes {p : Params} {time : Micros} {s : State} (hp : 0 < p.capacity)
    (h : s.cc.toNat ≤ p.capacity) : ∃ t, edgeWith p time s = .next t := by
  unfold edgeWith
  split
  · split
    · unfold edgeBoundary
      split
      · obtain ⟨r, hr⟩ := decodeFrame_inside (p := p) (n := frameLength s) (s := s) (by unfold frameLength; omega)
        exact ⟨_, by rw [hr]⟩
      · exact ⟨_, rfl⟩
    · exact ⟨_, rfl⟩
    · exact ⟨_, rfl⟩
  · exact ⟨_, rfl⟩

end Sys2Proof.Machine
end

