-- ==== Sys2Proof/Laws/State.lean ====
section
/-! SUPPORT. One lemma for each field under each update of the state, so that no later proof unfolds an update. -/

namespace Sys2Proof.Machine

section
variable (s : State) (code : BitVec 32) (bits delay : Nat)
@[simp] theorem State.publish_params : (s.publish code bits delay).params = s.params := rfl
@[simp] theorem State.publish_rxEn : (s.publish code bits delay).rxEn = s.rxEn := rfl
@[simp] theorem State.publish_rxPinValid : (s.publish code bits delay).rxPinValid = s.rxPinValid := rfl
@[simp] theorem State.publish_rxPin : (s.publish code bits delay).rxPin = s.rxPin := rfl
@[simp] theorem State.publish_tolPct : (s.publish code bits delay).tolPct = s.tolPct := rfl
@[simp] theorem State.publish_buf : (s.publish code bits delay).buf = s.buf := rfl
@[simp] theorem State.publish_cc : (s.publish code bits delay).cc = s.cc := rfl
@[simp] theorem State.publish_rc : (s.publish code bits delay).rc = s.rc := rfl
@[simp] theorem State.publish_lastTime : (s.publish code bits delay).lastTime = s.lastTime := rfl
@[simp] theorem State.publish_rxValue : (s.publish code bits delay).rxValue = code := rfl
@[simp] theorem State.publish_rxBitlen : (s.publish code bits delay).rxBitlen = BitVec.ofNat 32 bits := rfl
@[simp] theorem State.publish_rxDelay : (s.publish code bits delay).rxDelay = BitVec.ofNat 32 delay := rfl
@[simp] theorem State.publish_rxAvail : (s.publish code bits delay).rxAvail = true := rfl
@[simp] theorem State.publish_arrivals : (s.publish code bits delay).arrivals = s.arrivals := rfl
@[simp] theorem State.publish_response : (s.publish code bits delay).response = s.response := rfl
end

section
variable (s : State)
@[simp] theorem State.clearReceiver_params : s.clearReceiver.params = s.params := rfl
@[simp] theorem State.clearReceiver_rxEn : s.clearReceiver.rxEn = s.rxEn := rfl
@[simp] theorem State.clearReceiver_rxPinValid : s.clearReceiver.rxPinValid = s.rxPinValid := rfl
@[simp] theorem State.clearReceiver_rxPin : s.clearReceiver.rxPin = s.rxPin := rfl
@[simp] theorem State.clearReceiver_tolPct : s.clearReceiver.tolPct = s.tolPct := rfl
@[simp] theorem State.clearReceiver_buf : s.clearReceiver.buf = s.buf := rfl
@[simp] theorem State.clearReceiver_cc : s.clearReceiver.cc = s.cc := rfl
@[simp] theorem State.clearReceiver_rc : s.clearReceiver.rc = s.rc := rfl
@[simp] theorem State.clearReceiver_lastTime : s.clearReceiver.lastTime = s.lastTime := rfl
@[simp] theorem State.clearReceiver_rxValue : s.clearReceiver.rxValue = 0 := rfl
@[simp] theorem State.clearReceiver_rxBitlen : s.clearReceiver.rxBitlen = 0 := rfl
@[simp] theorem State.clearReceiver_rxDelay : s.clearReceiver.rxDelay = 0 := rfl
@[simp] theorem State.clearReceiver_rxAvail : s.clearReceiver.rxAvail = false := rfl
@[simp] theorem State.clearReceiver_arrivals : s.clearReceiver.arrivals = s.arrivals := rfl
@[simp] theorem State.clearReceiver_response : s.clearReceiver.response = s.response := rfl
end

section
variable (s : State) (pin : BitVec 8)
@[simp] theorem State.enableReceive_params : (s.enableReceive pin).params = s.params := rfl
@[simp] theorem State.enableReceive_rxEn : (s.enableReceive pin).rxEn = true := rfl
@[simp] theorem State.enableReceive_rxPinValid : (s.enableReceive pin).rxPinValid = true := rfl
@[simp] theorem State.enableReceive_rxPin : (s.enableReceive pin).rxPin = pin := rfl
@[simp] theorem State.enableReceive_tolPct : (s.enableReceive pin).tolPct = s.tolPct := rfl
@[simp] theorem State.enableReceive_buf : (s.enableReceive pin).buf = s.buf := rfl
@[simp] theorem State.enableReceive_cc : (s.enableReceive pin).cc = 0 := rfl
@[simp] theorem State.enableReceive_rc : (s.enableReceive pin).rc = 0 := rfl
@[simp] theorem State.enableReceive_lastTime : (s.enableReceive pin).lastTime = s.lastTime := rfl
@[simp] theorem State.enableReceive_rxValue : (s.enableReceive pin).rxValue = 0 := rfl
@[simp] theorem State.enableReceive_rxBitlen : (s.enableReceive pin).rxBitlen = 0 := rfl
@[simp] theorem State.enableReceive_rxDelay : (s.enableReceive pin).rxDelay = 0 := rfl
@[simp] theorem State.enableReceive_rxAvail : (s.enableReceive pin).rxAvail = false := rfl
@[simp] theorem State.enableReceive_arrivals : (s.enableReceive pin).arrivals = s.arrivals := rfl
@[simp] theorem State.enableReceive_response : (s.enableReceive pin).response = s.response := rfl
end

section
variable (p : Config.Params) (cc rc : Nat) (d time : Micros) (s : State)
@[simp] theorem storeDuration_params : (storeDuration p cc rc d time s).params = s.params := rfl
@[simp] theorem storeDuration_rxEn : (storeDuration p cc rc d time s).rxEn = s.rxEn := rfl
@[simp] theorem storeDuration_rxPinValid : (storeDuration p cc rc d time s).rxPinValid = s.rxPinValid := rfl
@[simp] theorem storeDuration_rxPin : (storeDuration p cc rc d time s).rxPin = s.rxPin := rfl
@[simp] theorem storeDuration_tolPct : (storeDuration p cc rc d time s).tolPct = s.tolPct := rfl
@[simp] theorem storeDuration_buf : (storeDuration p cc rc d time s).buf = s.buf.write (guardedIndex p cc) d := rfl
@[simp] theorem storeDuration_cc : (storeDuration p cc rc d time s).cc = BitVec.ofNat 8 (guardedIndex p cc + 1) := rfl
@[simp] theorem storeDuration_rc : (storeDuration p cc rc d time s).rc = BitVec.ofNat 2 (guardedRepeat p cc rc) := rfl
@[simp] theorem storeDuration_lastTime : (storeDuration p cc rc d time s).lastTime = time := rfl
@[simp] theorem storeDuration_rxValue : (storeDuration p cc rc d time s).rxValue = s.rxValue := rfl
@[simp] theorem storeDuration_rxBitlen : (storeDuration p cc rc d time s).rxBitlen = s.rxBitlen := rfl
@[simp] theorem storeDuration_rxDelay : (storeDuration p cc rc d time s).rxDelay = s.rxDelay := rfl
@[simp] theorem storeDuration_rxAvail : (storeDuration p cc rc d time s).rxAvail = s.rxAvail := rfl
@[simp] theorem storeDuration_arrivals : (storeDuration p cc rc d time s).arrivals = s.arrivals := rfl
@[simp] theorem storeDuration_response : (storeDuration p cc rc d time s).response = none := rfl
end

section
variable (s : State)
@[simp] theorem State.applyReset_params : s.applyReset.params = s.params := rfl
@[simp] theorem State.applyReset_rxEn : s.applyReset.rxEn = (State.resetWith s.params).rxEn := rfl
@[simp] theorem State.applyReset_rxPinValid : s.applyReset.rxPinValid = (State.resetWith s.params).rxPinValid := rfl
@[simp] theorem State.applyReset_rxPin : s.applyReset.rxPin = (State.resetWith s.params).rxPin := rfl
@[simp] theorem State.applyReset_tolPct : s.applyReset.tolPct = (State.resetWith s.params).tolPct := rfl
@[simp] theorem State.applyReset_buf : s.applyReset.buf = (State.resetWith s.params).buf := rfl
@[simp] theorem State.applyReset_cc : s.applyReset.cc = (State.resetWith s.params).cc := rfl
@[simp] theorem State.applyReset_rc : s.applyReset.rc = (State.resetWith s.params).rc := rfl
@[simp] theorem State.applyReset_lastTime : s.applyReset.lastTime = (State.resetWith s.params).lastTime := rfl
@[simp] theorem State.applyReset_rxValue : s.applyReset.rxValue = (State.resetWith s.params).rxValue := rfl
@[simp] theorem State.applyReset_rxBitlen : s.applyReset.rxBitlen = (State.resetWith s.params).rxBitlen := rfl
@[simp] theorem State.applyReset_rxDelay : s.applyReset.rxDelay = (State.resetWith s.params).rxDelay := rfl
@[simp] theorem State.applyReset_rxAvail : s.applyReset.rxAvail = (State.resetWith s.params).rxAvail := rfl
@[simp] theorem State.applyReset_arrivals : s.applyReset.arrivals = s.arrivals := rfl
@[simp] theorem State.applyReset_response : s.applyReset.response = (State.resetWith s.params).response := rfl
end

section
variable (s : State) (nbits w : Nat)
@[simp] theorem State.withFetchWord_params : (s.withFetchWord nbits w).params = s.params := rfl
@[simp] theorem State.withFetchWord_rxEn : (s.withFetchWord nbits w).rxEn = s.rxEn := rfl
@[simp] theorem State.withFetchWord_rxPinValid : (s.withFetchWord nbits w).rxPinValid = s.rxPinValid := rfl
@[simp] theorem State.withFetchWord_rxPin : (s.withFetchWord nbits w).rxPin = s.rxPin := rfl
@[simp] theorem State.withFetchWord_tolPct : (s.withFetchWord nbits w).tolPct = s.tolPct := rfl
@[simp] theorem State.withFetchWord_buf : (s.withFetchWord nbits w).buf = s.buf := rfl
@[simp] theorem State.withFetchWord_cc : (s.withFetchWord nbits w).cc = s.cc := rfl
@[simp] theorem State.withFetchWord_rc : (s.withFetchWord nbits w).rc = s.rc := rfl
@[simp] theorem State.withFetchWord_lastTime : (s.withFetchWord nbits w).lastTime = s.lastTime := rfl
@[simp] theorem State.withFetchWord_rxValue : (s.withFetchWord nbits w).rxValue = s.rxValue := rfl
@[simp] theorem State.withFetchWord_rxBitlen : (s.withFetchWord nbits w).rxBitlen = s.rxBitlen := rfl
@[simp] theorem State.withFetchWord_rxDelay : (s.withFetchWord nbits w).rxDelay = s.rxDelay := rfl
@[simp] theorem State.withFetchWord_rxAvail : (s.withFetchWord nbits w).rxAvail = s.rxAvail := rfl
@[simp] theorem State.withFetchWord_arrivals : (s.withFetchWord nbits w).arrivals = .operation (deliveryPort (tableWord nbits w)) (tableWord nbits w) :: s.arrivals := rfl
@[simp] theorem State.withFetchWord_response : (s.withFetchWord nbits w).response = s.response := rfl
end

section
variable (p : Config.Params)
@[simp] theorem State.resetWith_params : (State.resetWith p).params = p := rfl
@[simp] theorem State.resetWith_rxEn : (State.resetWith p).rxEn = false := rfl
@[simp] theorem State.resetWith_rxPinValid : (State.resetWith p).rxPinValid = false := rfl
@[simp] theorem State.resetWith_rxPin : (State.resetWith p).rxPin = 0 := rfl
@[simp] theorem State.resetWith_tolPct : (State.resetWith p).tolPct = p.tolReset := rfl
@[simp] theorem State.resetWith_buf : (State.resetWith p).buf = [] := rfl
@[simp] theorem State.resetWith_cc : (State.resetWith p).cc = 0 := rfl
@[simp] theorem State.resetWith_rc : (State.resetWith p).rc = 0 := rfl
@[simp] theorem State.resetWith_lastTime : (State.resetWith p).lastTime = 0 := rfl
@[simp] theorem State.resetWith_rxValue : (State.resetWith p).rxValue = 0 := rfl
@[simp] theorem State.resetWith_rxBitlen : (State.resetWith p).rxBitlen = 0 := rfl
@[simp] theorem State.resetWith_rxDelay : (State.resetWith p).rxDelay = 0 := rfl
@[simp] theorem State.resetWith_rxAvail : (State.resetWith p).rxAvail = false := rfl
@[simp] theorem State.resetWith_arrivals : (State.resetWith p).arrivals = [] := rfl
@[simp] theorem State.resetWith_response : (State.resetWith p).response = none := rfl
end

end Sys2Proof.Machine
end

