-- ==== Sys2Proof/Laws/Step.lean ====
section
/-! SUPPORT. What a host operation, a delivered word and a step can do, said once each. -/

namespace Sys2Proof.Machine

@[simp] theorem respond_next {status : Status} {data : BitVec 32} {s t : State} :
    respond status data s = .next t ↔ t = { s with response := some ⟨status, data⟩ } := by
  simp [respond, eq_comm]

@[simp] theorem raiseError_next {status : Status} {s t : State} :
    raiseError status s = .next t ↔ t = { s with response := some ⟨status, 0⟩ } := by
  simp [raiseError]

@[simp] theorem dropOperation_next {s t : State} : dropOperation s = .next t ↔ t = { s with response := none } := by
  simp [dropOperation, eq_comm]

/-- What a host-port operation does: it completes with one response; the state before the response is the old one, the
old one with receive enabled, disabled or its tolerance set, or with ReceiverState cleared; and a status that is not OK
comes with DATA 0 and the old state. -/
theorem exec_host_cases {i : Instr} (s : State) (hi : i.port = .host) :
    ∃ (u : State) (r : Response), exec i s = .next { u with response := some r } ∧
      ((u = s ∧ (r.status = .ok ∨ (r.status = .errRange ∧ r.data = 0))) ∨
       (r = ⟨.ok, 0⟩ ∧
        ((∃ pin, i = .rxEnable pin ∧ u = s.enableReceive pin) ∨
         (i = .rxRearm ∧ s.rxPinValid = true ∧ u = s.enableReceive s.rxPin) ∨
         (i = .rxDisable ∧ u = { s with rxEn := false }) ∨
         (∃ pct, i = .rxSetTol pct ∧ pctInRange pct = true ∧ u = { s with tolPct := pctValue pct }) ∨
         (i = .rxResetAvailable ∧ u = s.clearReceiver)))) := by
  cases i with
  | edge time => cases hi
  | rxEnable pin => exact ⟨_, _, rfl, .inr ⟨rfl, .inl ⟨pin, rfl, rfl⟩⟩⟩
  | rxRearm =>
    by_cases h : s.rxPinValid = true
    · have e : exec .rxRearm s = respond .ok 0 (s.enableReceive s.rxPin) := by simp [exec, execRxRearm, h]
      exact ⟨_, _, e, .inr ⟨rfl, .inr (.inl ⟨rfl, h, rfl⟩)⟩⟩
    · have e : exec .rxRearm s = respond .ok 0 s := by simp [exec, execRxRearm, h]
      exact ⟨_, _, e, .inl ⟨rfl, .inl rfl⟩⟩
  | rxDisable => exact ⟨{ s with rxEn := false }, ⟨.ok, 0⟩, rfl, .inr ⟨rfl, .inr (.inr (.inl ⟨rfl, rfl⟩))⟩⟩
  | rxSetTol pct =>
    by_cases h : pctInRange pct = true
    · have e : exec (.rxSetTol pct) s = respond .ok 0 { s with tolPct := pctValue pct } := by
        simp [exec, execRxSetTol, h]
      exact ⟨_, _, e, .inr ⟨rfl, .inr (.inr (.inr (.inl ⟨pct, rfl, h, rfl⟩)))⟩⟩
    · have e : exec (.rxSetTol pct) s = raiseError .errRange s := by simp [exec, execRxSetTol, h]
      exact ⟨_, _, e, .inl ⟨rfl, .inr ⟨rfl, rfl⟩⟩⟩
  | rxAvailable => exact ⟨_, _, rfl, .inl ⟨rfl, .inl rfl⟩⟩
  | rxResetAvailable => exact ⟨_, _, rfl, .inr ⟨rfl, .inr (.inr (.inr (.inr ⟨rfl, rfl⟩)))⟩⟩
  | rxGetValue => exact ⟨_, _, rfl, .inl ⟨rfl, .inl rfl⟩⟩
  | rxGetBitlen => exact ⟨_, _, rfl, .inl ⟨rfl, .inl rfl⟩⟩
  | rxGetDelay => exact ⟨_, _, rfl, .inl ⟨rfl, .inl rfl⟩⟩
  | rxGetRaw idx =>
    simp only [exec, execRxGetRaw, getRawWith]
    split
    · exact ⟨_, _, rfl, .inl ⟨rfl, .inl rfl⟩⟩
    · exact ⟨s, ⟨.errRange, 0⟩, rfl, .inl ⟨rfl, .inr ⟨rfl, rfl⟩⟩⟩
  | rxGetConfig => exact ⟨_, _, rfl, .inl ⟨rfl, .inl rfl⟩⟩
  | cipherDecrypt code => exact ⟨_, _, rfl, .inl ⟨rfl, .inl rfl⟩⟩
  | cipherEncrypt rid val rcode tid => exact ⟨_, _, rfl, .inl ⟨rfl, .inl rfl⟩⟩

/-- An operation of the pulse port is an EDGE. -/
theorem pulse_is_edge {i : Instr} (h : i.port = .pulse) : ∃ time, i = .edge time := by
  cases i <;> first | exact ⟨_, rfl⟩ | cases h

/-- What a delivered word can do: run as the operation its port accepts, or be refused. -/
theorem stepWord_cases (port : Port) (w : Word) (s : State) :
    (∃ i, accept port w = .ok i ∧ stepWord port w s = exec i s) ∨
    ((∀ i, accept port w ≠ .ok i) ∧ stepWord port w s = refuseWord port s) := by
  unfold stepWord
  match accept port w with
  | .ok i => exact .inl ⟨i, rfl, rfl⟩
  | .error e => exact .inr ⟨fun _ => (nomatch ·), rfl⟩

/-- What a step can do: nothing when nothing arrives, reset, or a delivered word. -/
theorem step_cases (s : State) :
    (s.arrivals = [] ∧ step s = .next s) ∨
    (∃ rest, s.arrivals = .reset :: rest ∧ step s = .next { State.resetWith s.params with arrivals := rest }) ∨
    (∃ port w rest, s.arrivals = .operation port w :: rest ∧
      step s = stepWord port w { s with arrivals := rest }) := by
  unfold step
  split
  · next h => exact .inl ⟨h, rfl⟩
  · next port w rest h => exact .inr (.inr ⟨port, w, rest, h, rfl⟩)
  · next rest h => exact .inr (.inl ⟨rest, h, rfl⟩)

end Sys2Proof.Machine
end

