-- ==== Sys2Proof/Laws/Run.lean ====
section
/-! SUPPORT. Runs of several steps, and the EDGE operations a list of durations delivers. -/

namespace Sys2Proof.Machine

theorem run_one {s t : State} (h : step s = .next t) : Host.Core.run Sys2Proof.core 1 s = .next t := by
  simp only [Host.Core.run]
  rw [show core.step s = _ from h]

/-- A run goes on from where a shorter one ends. -/
theorem run_add (M : Host.Core) : ∀ (a b : Nat) {s t : M.State}, Host.Core.run M a s = .next t →
    Host.Core.run M (a + b) s = Host.Core.run M b t
  | 0, b, _, _, h => by
    cases h
    rw [Nat.zero_add]
  | a + 1, b, s, t, h => by
    rw [show a + 1 + b = (a + b) + 1 by omega]
    simp only [Host.Core.run] at h ⊢
    split at h
    · exact run_add M a b h
    · cases h
    · cases h

/-- The next of a list of durations is delivered as an EDGE that many microseconds after the last. -/
theorem step_edgeArrivals {s : State} {d : Nat} {ds : List Nat}
    (ha : s.arrivals = edgeArrivals s.lastTime (d :: ds)) :
    step s = exec (.edge (s.lastTime + BitVec.ofNat 32 d))
      { s with arrivals := edgeArrivals (s.lastTime + BitVec.ofNat 32 d) ds } := by
  simp only [edgeArrivals] at ha
  have h : ∀ time, accept .pulse (encode (.edge time)) = .ok (.edge time) := by
    intro time
    rw [accept_ok, decode_ok]
    refine ⟨⟨opcodeField_wordT _ _, wordT_reserved _ _, ?_⟩, rfl⟩
    simp [encode, Instr.opcode, readOperands]
  simp only [step, ha, stepWord, h]

/-- The duration such an EDGE measures. -/
theorem duration_add (s : State) {d : Nat} (h : d < 2 ^ 32) :
    (duration s (s.lastTime + BitVec.ofNat 32 d)).toNat = d := by
  have e : duration s (s.lastTime + BitVec.ofNat 32 d) = BitVec.ofNat 32 d := by
    simp only [duration]
    bv_omega
  rw [e, BitVec.toNat_ofNat, Nat.mod_eq_of_lt h]

end Sys2Proof.Machine
end

