-- ==== Sys2Proof/Tests/Slice0.lean ====
section
/-! SUPPORT. Tests of the model on vectors of 95_test_vectors.md, and for each statement with hypotheses a witness that they
can be met. -/

namespace Sys2Proof.Tests

open Sys2Proof.Machine

/-! ### Well-formedness: each check refuses an ill-formed term -/

theorem test_wellFormed_tolerance :
    (Instr.rxSetTol 100).wellFormed defaultParams = true ∧ (Instr.rxSetTol 101).wellFormed defaultParams = false := by decide

theorem test_wellFormed_slot :
    (Instr.rxGetRaw 66).wellFormed defaultParams = true ∧ (Instr.rxGetRaw 67).wellFormed defaultParams = false := by decide

theorem test_params_capacity :
    ¬ { defaultParams with capacity := 66 }.rangesLegal ∧ ¬ { defaultParams with capacity := 256 }.rangesLegal ∧
    { defaultParams with capacity := 255 }.rangesLegal := by decide

theorem test_params_gap :
    ¬ { defaultParams with gapHi := 4000 }.rangesLegal ∧ ¬ { defaultParams with gapHi := 2 ^ 32 }.rangesLegal := by decide

theorem test_params_tolerance :
    ¬ { defaultParams with tolReset := 101 }.rangesLegal ∧ { defaultParams with tolReset := 100 }.rangesLegal := by decide

theorem test_params_inverse_table : ¬ { defaultParams with ikey := defaultParams.ikey.set 0 6 }.tablesLegal := by decide

theorem test_params_sentinel : ¬ { defaultParams with key := defaultParams.key.set 16 8 }.tablesLegal := by decide

/-! ### Decoding: words written out from the formats of R63 to R68 (V-X1 to V-X15) -/

theorem test_decode_edge : decode 0x0100000000002194 = .ok (.edge 8596) := by decide
theorem test_decode_rxEnable : decode 0x1000000000000002 = .ok (.rxEnable 2) := by decide
theorem test_decode_rxRearm : decode 0x1100000000000000 = .ok .rxRearm := by decide
theorem test_decode_rxDisable : decode 0x1200000000000000 = .ok .rxDisable := by decide
theorem test_decode_rxSetTol : decode 0x130000000000003C = .ok (.rxSetTol 60) := by decide
theorem test_decode_rxAvailable : decode 0x2000000000000000 = .ok .rxAvailable := by decide
theorem test_decode_rxResetAvailable : decode 0x2100000000000000 = .ok .rxResetAvailable := by decide
theorem test_decode_rxGetValue : decode 0x2200000000000000 = .ok .rxGetValue := by decide
theorem test_decode_rxGetBitlen : decode 0x2300000000000000 = .ok .rxGetBitlen := by decide
theorem test_decode_rxGetDelay : decode 0x2400000000000000 = .ok .rxGetDelay := by decide
theorem test_decode_rxGetRaw : decode 0x2500000000000039 = .ok (.rxGetRaw 57) := by decide
theorem test_decode_rxGetConfig : decode 0x2600000000000000 = .ok .rxGetConfig := by decide
theorem test_decode_cipherDecrypt : decode 0x30000000024B4D96 = .ok (.cipherDecrypt 0x24B4D96) := by decide
theorem test_decode_cipherEncrypt : decode 0x3100000FFFF0309F = .ok (.cipherEncrypt 15 9 3 0xFFFF) := by decide

/-- V-C7: every field of format E at a value of its own. -/
theorem test_decode_fields_of_format_e : decode 0x3100000800107FF4 = .ok (.cipherEncrypt 4 255 7 0x8001) := by decide

/-- V-X16 to V-X18. -/
theorem test_decode_unassigned :
    decode 0x0000000000000000 = .error .unassignedOpcode ∧ decode 0xFF00000000000000 = .error .unassignedOpcode ∧
    decode 0x1400000000000000 = .error .unassignedOpcode := by decide

/-- V-X20, V-X21, V-X23, V-X24 and V-X28. -/
theorem test_decode_reserved :
    decode 0x1100000000000001 = .error .reservedBits ∧ decode 0x1000000000000102 = .error .reservedBits ∧
    decode 0x3000000010000000 = .error .reservedBits ∧ decode 0x3100001000000000 = .error .reservedBits ∧
    decode 0x0100000100000010 = .error .reservedBits := by decide

/-- V-X19 and V-X27. -/
theorem test_accept_wrong_port :
    accept .host 0x0100000000002194 = .error .wrongPort ∧ accept .pulse 0x2200000000000000 = .error .wrongPort := by decide

/-- The table's own example of numbering: the first 64 bits are the whole word. -/
theorem test_decodeTableWord : decodeTableWord 64 0x130000000000003C = some (.rxSetTol 60) := by decide

/-- No word is in two rows of the match and mask table. -/
theorem test_table_rows_disjoint :
    opcodeTable.Pairwise fun r q => r.pattern &&& q.mask ≠ q.pattern &&& r.mask := by decide

/-! ### Assembler and disassembler -/

theorem test_readLine_operation :
    readLine "H CIPHER_ENCRYPT 1, 1, 0, 0x1234 ; V-X13".toList =
      some (some (.operation .host .cipherEncrypt [1, 1, 0, 0x1234])) := by decide

theorem test_readLine_pseudo :
    readLine "P REP 0x24B4D96, 300".toList = some (some (.rep 0x24B4D96 300)) ∧
    readLine "H CLAIM".toList = some (some .claim) ∧ readLine ".time 0x1000".toList = some (some (.time 4096)) := by decide

/-- R77: an operand that does not fit its field is refused. -/
theorem test_assemble_refuses : assembleText ["H RX_ENABLE 256".toList] = none := by decide

/-- R78: EDGE+ counts from the timestamp before it. -/
theorem test_assemble_edgePlus :
    assembleText [".time 0x1000".toList, "P EDGE+ 4500".toList] =
      some [.operation .pulse 0x0100000000002194] := by decide

/-- V-X13, V-X15 and V-X20. -/
theorem test_disassemble :
    (disassemble 0x3100000123400011).text = "CIPHER_ENCRYPT 1, 1, 0, 4660".toList ∧
    (disassemble 0x0100000000002194).text = "EDGE 0x2194".toList ∧
    (disassemble 0x1100000000000001).text = ".word64 0x1100000000000001".toList := by decide

/-- R118: a repetition delivers 58 EDGE operations. -/
theorem test_repetition_length : (repetitionDurations 0x24B4D96 300).length = 58 := by decide

/-! ### Operations, one step each -/

/-- The state an operation leaves. -/
def after (i : Instr) (s : State) : Option State :=
  match exec i s with
  | .next t => some t
  | .fault _ => none
  | .refused _ => none

/-- The state DECODE leaves. -/
def afterDecode (n : Nat) (s : State) : Option State :=
  match decodeFrame s.params n s with
  | .next t => some t
  | .fault _ => none
  | .refused _ => none

/-- Durations in the buffer from slot 0. -/
def bufferOf (ds : List Micros) : Memory := ds.foldl (fun m d => m.write m.length d) []

/-- Receive enabled, with the counters and the last timestamp given. -/
def receiving (cc : BitVec 8) (rc : BitVec 2) (lastTime : Micros) (ds : List Micros) : State :=
  { State.reset with
    rxEn := true, rxPinValid := true, rxPin := 2, cc := cc, rc := rc, lastTime := lastTime, buf := bufferOf ds }

/-- An unclaimed value, as V-H9 starts with. -/
def unclaimed : State := { receiving 4 0 0 [4500, 300] with rxValue := 2, rxBitlen := 3, rxDelay := 300, rxAvail := true }

/-- V-E7: a timestamp that wraps. -/
theorem test_edge_wraps :
    (after (.edge 0x100) (receiving 3 0 0xFFFFFF00 [])).map (fun t => (t.buf, t.cc, t.lastTime)) =
      some ([(3, 512)], 4, 0x100) := by decide

/-- V-E8: the overflow guard. -/
theorem test_edge_overflow :
    (after (.edge 300) (receiving 67 1 0 [])).map (fun t => (t.buf, t.cc, t.rc)) = some ([(0, 300)], 1, 0) := by decide

/-- V-D6j: a first pair just inside the windows of a 1. -/
theorem test_decode_frame_at_window :
    (afterDecode 7 (receiving 8 1 0 [4500, 721, 300, 300, 900, 300, 900, 300])).map
      (fun t => (t.rxValue, t.rxBitlen, t.rxDelay, t.rxAvail)) = some (4, 3, 300, true) := by decide

/-- V-D6i: the same pair at the window's open end. -/
theorem test_decode_frame_at_open_end :
    (afterDecode 7 (receiving 8 1 0 [4500, 720, 300, 300, 900, 300, 900, 300])).map (·.rxAvail) = some false := by decide

/-- V-D9b: 33 pairs in a 32-bit accumulator; the first bit, a 0, is shifted out. -/
theorem test_decode_frame_longest :
    (afterDecode 66 (receiving 67 1 0 (4500 :: 300 :: 900 :: (List.replicate 32 [900, 300]).flatten))).map
      (fun t => (t.rxValue, t.rxBitlen, t.rxAvail)) = some (0xFFFFFFFF, 33, true) := by decide

/-- V-H8: RX_ENABLE clears an unclaimed value and the counters, and keeps BUF. -/
theorem test_rxEnable_restarts :
    (after (.rxEnable 5) unclaimed).map (fun t => (t.rxPin, t.rxAvail, t.cc, t.buf)) =
      some (5, false, 0, [(0, 4500), (1, 300)]) := by decide

/-- V-H2a: RX_REARM with no pin does nothing. -/
theorem test_rxRearm_without_pin : after .rxRearm State.reset = some (responding State.reset .ok 0) := by decide

/-- V-H2b: RX_REARM takes the pin held. -/
theorem test_rxRearm_with_pin :
    (after .rxRearm { unclaimed with rxEn := false }).map (fun t => (t.rxEn, t.rxPin, t.rxAvail)) =
      some (true, 2, false) := by decide

/-- V-H3: RX_DISABLE keeps the published value and the counters. -/
theorem test_rxDisable_keeps :
    (after .rxDisable unclaimed).map (fun t => (t.rxEn, t.rxAvail, t.rxValue, t.cc)) = some (false, true, 2, 4) := by decide

/-- V-H4. -/
theorem test_rxSetTol :
    (after (.rxSetTol 25) State.reset).map (fun t => (t.tolPct, t.response)) = some (25, some ⟨.ok, 0⟩) := by decide

/-- V-H4, its second operation. -/
theorem test_rxSetTol_refused :
    (after (.rxSetTol 101) State.reset).map (fun t => (t.tolPct, t.response)) = some (60, some ⟨.errRange, 0⟩) := by decide

theorem test_rxAvailable : (after .rxAvailable unclaimed).map (·.response) = some (some ⟨.ok, 1⟩) := by decide

/-- V-H5: a claim clears all four fields. -/
theorem test_rxResetAvailable :
    (after .rxResetAvailable unclaimed).map (fun t => (t.rxAvail, t.rxValue, t.rxBitlen, t.rxDelay)) =
      some (false, 0, 0, 0) := by decide

/-- V-H9: the value read is the one not yet claimed. -/
theorem test_rxGetValue : (after .rxGetValue unclaimed).map (·.response) = some (some ⟨.ok, 2⟩) := by decide

theorem test_rxGetBitlen : (after .rxGetBitlen unclaimed).map (·.response) = some (some ⟨.ok, 3⟩) := by decide

theorem test_rxGetDelay : (after .rxGetDelay unclaimed).map (·.response) = some (some ⟨.ok, 300⟩) := by decide

/-- V-H6. -/
theorem test_rxGetRaw :
    (after (.rxGetRaw 0) unclaimed).map (·.response) = some (some ⟨.ok, 4500⟩) ∧
    (after (.rxGetRaw 66) unclaimed).map (·.response) = some (some ⟨.ok, 0⟩) := by decide

/-- V-H6, past the last slot. -/
theorem test_rxGetRaw_refused : (after (.rxGetRaw 67) unclaimed).map (·.response) = some (some ⟨.errRange, 0⟩) := by decide

/-- V-H1. -/
theorem test_rxGetConfig :
    (after .rxGetConfig (receiving 0 0 0 [])).map (·.response) = some (some ⟨.ok, 0x433C0203⟩) := by decide

/-- V-C5. -/
theorem test_cipherDecrypt :
    (after (.cipherDecrypt 0xC8B1199) State.reset).map (·.response) = some (some ⟨.ok, 0x0FFF0253⟩) := by decide

/-- V-C12: a code no encrypt produces. -/
theorem test_cipherDecrypt_zero :
    (after (.cipherDecrypt 0) State.reset).map (·.response) = some (some ⟨.ok, 0xFFFF033A⟩) := by decide

/-- V-C3. -/
theorem test_cipherEncrypt :
    (after (.cipherEncrypt 15 9 3 0xFFFF) State.reset).map (·.response) = some (some ⟨.ok, 0x09A8349F⟩) := by decide

/-- V-C7: a value above 9 and a rolling code above 3. -/
theorem test_cipherEncrypt_out_of_range :
    (after (.cipherEncrypt 4 255 7 0x8001) State.reset).map (·.response) = some (some ⟨.ok, 0x0673B82A⟩) := by decide

/-! ### Other parameters -/

/-- A block with other legal parameters: another capacity, other bounds, and tables of its own. -/
def otherParams : Config.Params where
  capacity := 255
  gapLo := 900
  gapHi := 1000
  tolReset := 100
  key := #v[1, 0, 2, 3, 4, 5, 6, 7, 8, 9, 10, 11, 12, 13, 14, 15, 1]
  ikey := #v[1, 0, 2, 3, 4, 5, 6, 7, 8, 9, 10, 11, 12, 13, 14, 15]

/-- The operations use the parameters of the block: R175 and R147 followed by hand with those above. -/
theorem test_other_parameters :
    (after .rxGetConfig (State.resetWith otherParams)).map (·.response) = some (some ⟨.ok, 0xFF640000⟩) ∧
    (after (.cipherEncrypt 0 0 0 0) (State.resetWith otherParams)).map (·.response) = some (some ⟨.ok, 0x6404040⟩) := by
  decide

/-- A duration that is a boundary for those bounds and ordinary for the default ones. -/
theorem test_other_gap_bounds :
    (after (.edge 950) { receiving 3 0 0 [] with params := otherParams }).map (fun t => (t.buf, t.rc)) =
      some ([(0, 950)], 1) := by decide

/-! ### Steps -/

/-- A state with one word about to arrive. -/
def arriving (port : Port) (w : Word) (s : State) : State := { s with arrivals := [.operation port w] }

/-- V-X22: the reserved bit wins over the operand range. -/
theorem test_step_check_order :
    step (arriving .host 0x1300000000000165 State.reset) = .next (responding State.reset .errIllegal 0) := rfl

/-- V-X29: an unassigned opcode on the pulse port is dropped. -/
theorem test_step_pulse_drop : step (arriving .pulse 0 State.reset) = .next State.reset := rfl

theorem test_withFetchWord_runs_first :
    step (State.reset.withFetchWord 64 0x2600000000000000) = .next (responding State.reset .ok 0x433C0000) := rfl

/-! ### Witnesses: the hypotheses of each statement are met -/

theorem witness_EncodeOfDecode : decode 0x3100000800107FF4 = .ok (.cipherEncrypt 4 255 7 0x8001) := by decide

theorem witness_OperationsAreTheTableRows :
    decode 0x2500000000000039 = .ok (.rxGetRaw 57) ∧
    (⟨.rxGetRaw, 0x2500000000000000, 0xFFFFFFFFFFFFFF00⟩ : TableRow) ∈ opcodeTable ∧
    (0x2500000000000039 : Word) &&& 0xFFFFFFFFFFFFFF00 = 0x2500000000000000 := by decide

theorem witness_StepRunsTheAcceptedOperation :
    (arriving .pulse 0x0100000000002194 State.reset).arrivals = .operation .pulse 0x0100000000002194 :: [] ∧
    accept .pulse 0x0100000000002194 = .ok (.edge 0x2194) ∧ accept .host 0x1000000000000002 = .ok (.rxEnable 2) := by decide

/-- R71's clause at both ends of each unassigned range. -/
theorem witness_IllegalWordsChangeNothing_unassigned :
    (arriving .host 0x0F00000000000000 State.reset).arrivals = .operation .host 0x0F00000000000000 :: [] ∧
    UnassignedOpc (opcodeField 0x0F00000000000000) ∧
    ∀ b : BitVec 8, b ∈ [0x00, 0x02, 0x0F, 0x14, 0x1F, 0x27, 0x2F, 0x32, 0xFF] → UnassignedOpc b := by decide

/-- R72's clause at the lowest and the highest reserved bit. -/
theorem witness_IllegalWordsChangeNothing_reserved :
    (arriving .pulse 0x0100000100000000 State.reset).arrivals = .operation .pulse 0x0100000100000000 :: [] ∧
    (¬ UnassignedOpc (opcodeField 0x0100000100000000) ∧ ReservedBitSet 0x0100000100000000) ∧
    (¬ UnassignedOpc (opcodeField 0x3180000000000000) ∧ ReservedBitSet 0x3180000000000000) := by decide

/-- R73's two clauses. -/
theorem witness_IllegalWordsChangeNothing_port :
    (arriving .host 0x0100000000002194 State.reset).arrivals = .operation .host 0x0100000000002194 :: [] ∧
    opcodeField 0x0100000000002194 = 0x01 ∧
    (arriving .pulse 0x2200000000000000 State.reset).arrivals = .operation .pulse 0x2200000000000000 :: [] ∧
    ¬ UnassignedOpc (opcodeField 0x2200000000000000) ∧ opcodeField 0x2200000000000000 ≠ 0x01 := by decide

theorem witness_IllegalHasThreeCauses :
    (arriving .host 0x3000000010000000 State.reset).arrivals = .operation .host 0x3000000010000000 :: [] ∧
    step (arriving .host 0x3000000010000000 State.reset) = .next (responding State.reset .errIllegal 0) := ⟨rfl, rfl⟩

theorem witness_RangeErrorHasTwoCauses :
    exec (.rxSetTol 101) State.reset = .next (responding State.reset .errRange 0) ∧
    exec (.rxGetRaw 67) State.reset = .next (responding State.reset .errRange 0) ∧
    exec (.rxSetTol 100) State.reset = .next { State.reset with tolPct := 100, response := some ⟨.ok, 0⟩ } ∧
    exec (.rxGetRaw 66) State.reset = .next (responding State.reset .ok 0) := ⟨rfl, rfl, rfl, rfl⟩

theorem witness_ErrorChangesNoState :
    (arriving .host 0x1300000000000065 State.reset).arrivals = .operation .host 0x1300000000000065 :: [] ∧
    step (arriving .host 0x1300000000000065 State.reset) = .next (responding State.reset .errRange 0) ∧
    (responding State.reset .errRange 0).response = some ⟨.errRange, 0⟩ ∧ Status.errRange ≠ .ok :=
  ⟨rfl, rfl, rfl, by decide⟩

theorem witness_PulsePortReturnsNothing :
    (arriving .pulse 0x2200000000000000 unclaimed).arrivals = .operation .pulse 0x2200000000000000 :: [] ∧
    step (arriving .pulse 0x2200000000000000 unclaimed) = .next unclaimed ∧
    ∀ i, accept .pulse 0x2200000000000000 ≠ .ok i := ⟨rfl, rfl, fun _ h => by cases h⟩

theorem witness_HostPortReturnsOneResponse :
    (arriving .host 0x2600000000000000 State.reset).arrivals = .operation .host 0x2600000000000000 :: [] := rfl

/-- One word on each port. -/
def bothPorts : State :=
  { State.reset with arrivals := [.operation .host 0x2600000000000000, .operation .pulse 0x0100000000002194] }

theorem witness_ArrivalsAreTakenInOrder :
    bothPorts.arrivals = .operation .host 0x2600000000000000 :: [.operation .pulse 0x0100000000002194] ∧
    (∃ t, step bothPorts = .next t) ∧ Port.pulse ≠ .host := ⟨rfl, ⟨_, rfl⟩, by decide⟩

theorem witness_ResetSetsEveryElement :
    ({ unclaimed with arrivals := [.reset] } : State).arrivals = .reset :: [] := rfl

theorem unclaimed_consistent (arrivals : List Arrival) : Consistent { unclaimed with arrivals := arrivals } := by
  constructor <;> simp only <;> decide

theorem witness_StepKeepsTheInvariant :
    Consistent (arriving .pulse 0x0100000000002194 unclaimed) ∧
    ∃ t, step (arriving .pulse 0x0100000000002194 unclaimed) = .next t := ⟨unclaimed_consistent _, ⟨_, rfl⟩⟩

theorem witness_ResetMeetsTheInvariant : otherParams.legal := by decide

theorem witness_ParametersAreFixed :
    ∃ t, step { State.resetWith otherParams with arrivals := [.reset] } = .next t ∧ t.tolPct = 100 := ⟨_, rfl, rfl⟩

theorem witness_StepNeverStops : Consistent (arriving .pulse 0x0100000000002194 unclaimed) := unclaimed_consistent _

/-- V-E1, then the operations that enable receive. -/
theorem witness_DisabledEdgeIsDropped :
    ({ unclaimed with rxEn := false } : State).rxEn = false ∧
    (∃ t, exec (.rxEnable 2) { unclaimed with rxEn := false } = .next t) ∧
    ∃ t, exec .rxRearm { unclaimed with rxEn := false } = .next t := ⟨rfl, ⟨_, rfl⟩, ⟨_, rfl⟩⟩

/-- V-E6a and V-E6b: both bounds are ordinary; the first clause at its last slot, the second at a full buffer (V-E8). -/
theorem witness_OrdinaryEdgeStoresAtChangeCount :
    (receiving 66 0 0 []).rxEn = true ∧
    (¬ IsBoundary (receiving 66 0 0 []) 4000 ∧ (duration (receiving 66 0 0 []) 4000).toNat ≤ (receiving 66 0 0 []).params.gapHi) ∧
    (¬ IsBoundary (receiving 66 0 0 []) 6000 ∧ (duration (receiving 66 0 0 []) 6000).toNat ≤ (receiving 66 0 0 []).params.gapHi) ∧
    (receiving 66 0 0 []).cc.toNat < (receiving 66 0 0 []).params.capacity ∧
    (receiving 67 1 0 []).rxEn = true ∧ ¬ IsBoundary (receiving 67 1 0 []) 300 ∧
    (duration (receiving 67 1 0 []) 300).toNat ≤ (receiving 67 1 0 []).params.gapHi ∧
    (receiving 67 1 0 []).params.capacity ≤ (receiving 67 1 0 []).cc.toNat := by decide

/-- V-E6e. -/
theorem witness_LongGapOpensAFrame :
    (receiving 3 0 0 []).params.legal ∧ (receiving 3 0 0 []).rxEn = true ∧
    (receiving 3 0 0 []).params.gapHi < (duration (receiving 3 0 0 []) 6001).toNat := by decide

/-- V-E6c and V-E6d. -/
theorem witness_FirstBoundaryDecodesNothing :
    (receiving 3 0 0 []).params.legal ∧ (receiving 3 0 0 []).rxEn = true ∧ IsBoundary (receiving 3 0 0 []) 4001 ∧ IsBoundary (receiving 3 0 0 []) 5999 ∧
    (receiving 3 0 0 []).rc = 0 := by decide

/-- The frame of V-D4, closed by a boundary. -/
def threeBits : State := receiving 8 1 0 [4500, 300, 900, 900, 300, 300, 900, 300]

/-- V-D4: the fewest transitions that publish. -/
theorem witness_SecondBoundaryPublishesTheFrame :
    threeBits.rxEn = true ∧ IsBoundary threeBits 4500 ∧ threeBits.rc = 1 ∧ threeBits.cc.toNat ≤ threeBits.params.capacity ∧
    threeBits.tolPct.toNat ≤ 100 ∧ 6 < threeBits.cc.toNat - 1 ∧
    [false, true, false].length = (threeBits.cc.toNat - 1) / 2 ∧
    ∀ k bit, [false, true, false][k]? = some bit → FramePairIs threeBits k bit := by
  refine ⟨rfl, by decide, rfl, by decide, by decide, by decide, rfl, fun k bit h => ?_⟩
  match k, h with
  | 0, h => cases h; decide
  | 1, h => cases h; decide
  | 2, h => cases h; decide

/-- The first clause with V-D3 (six transitions), the second with V-D6a (a duration at the window's open end). -/
theorem witness_FailedDecodePublishesNothing :
    let short := { threeBits with cc := 7 }
    let mismatched := receiving 8 1 0 [4500, 120, 900, 300, 900, 300, 900, 300]
    (short.params.legal ∧ short.rxEn = true ∧ IsBoundary short 4500 ∧ short.rc = 1 ∧ short.cc.toNat ≤ short.params.capacity ∧
      short.cc.toNat - 1 ≤ 6) ∧
    mismatched.params.legal ∧ mismatched.rxEn = true ∧ IsBoundary mismatched 4500 ∧ mismatched.rc = 1 ∧
    mismatched.cc.toNat ≤ mismatched.params.capacity ∧
    ∃ k, k < (mismatched.cc.toNat - 1) / 2 ∧ ∀ bit, ¬ FramePairIs mismatched k bit := by
  refine ⟨by decide, by decide, by decide, by decide, by decide, by decide, 0, by decide, fun bit => ?_⟩
  cases bit <;> decide

/-- A boundary, and an ordinary duration at a full buffer. -/
theorem witness_EdgeStoresOneDuration :
    threeBits.params.legal ∧ threeBits.buf.wf threeBits.params.capacity = true ∧ threeBits.rxEn = true ∧ IsBoundary threeBits 4500 ∧
    (∃ t, exec (.edge 4500) threeBits = .next t) ∧ (receiving 67 1 0 [300]).buf.wf (receiving 67 1 0 [300]).params.capacity = true ∧
    ∃ t, exec (.edge 300) (receiving 67 1 0 [300]) = .next t :=
  ⟨by decide, by decide, rfl, by decide, ⟨_, rfl⟩, by decide, ⟨_, rfl⟩⟩

/-- The tolerance at its largest legal value; the pair of V-D11a just inside the window. -/
theorem witness_PairsClassifyByTheirWindows :
    (100 : BitVec 7).toNat ≤ 100 ∧ PairIs 300 (300 * (100 : BitVec 7).toNat / 100) false 599 900 ∧
    ¬ PairIs 300 (300 * (100 : BitVec 7).toNat / 100) false 600 900 := by decide

/-- V-D7. -/
theorem witness_ZeroTolerancePublishesNothing :
    specTol { threeBits with tolPct := 0 } = 0 ∧ ∃ t, exec (.edge 4500) { threeBits with tolPct := 0 } = .next t :=
  ⟨by decide, ⟨_, rfl⟩⟩

/-- V-E4, at the lowest tolerance that leaves the windows open. -/
theorem witness_NominalFramePublishesItsCode :
    let s := { claimRaceStart [] with tolPct := 1 }
    s.params.legal ∧ s.rxEn = true ∧ IsBoundary s 0x2194 ∧ s.rc = 1 ∧ s.cc = 58 ∧ s.tolPct.toNat ≤ 100 ∧ 15 * 300 < 2 ^ 32 ∧
    100 ≤ 300 * s.tolPct.toNat ∧
    ∀ slot d, (frameSlots 0x24B4D96 300)[slot]? = some d → (s.buf.read slot).toNat = d := by
  refine ⟨by decide, rfl, by decide, rfl, rfl, by decide, by decide, by decide, fun slot d h => ?_⟩
  have all : ∀ slot : Fin 58, (frameSlots 0x24B4D96 300)[slot.val]? =
      some ((claimRaceStart []).buf.read slot.val).toNat := by decide
  by_cases hs : slot < 58
  · exact Option.some.inj ((all ⟨slot, hs⟩).symm.trans h)
  · rw [List.getElem?_eq_none (Nat.le_trans (by decide) (Nat.le_of_not_lt hs))] at h
    cases h

/-- The lowest unit and the highest (R118), and the fewest repetitions of each clause. -/
theorem witness_TransmissionPublishesItsCode :
    let s := fun u retries => { unclaimed with arrivals := edgeArrivals 0 (transmissionDurations 0x24B4D96 u retries) }
    (∀ u retries, Consistent (s u retries) ∧ (s u retries).rxEn = true ∧ (s u retries).rc = 0 ∧
      (s u retries).arrivals = edgeArrivals (s u retries).lastTime (transmissionDurations 0x24B4D96 u retries)) ∧
    (∀ u ∈ [267, 399], unclaimed.params.gapLo < 15 * u ∧ 15 * u < unclaimed.params.gapHi ∧ 3 * u ≤ unclaimed.params.gapLo ∧
      100 ≤ u * unclaimed.tolPct.toNat) :=
  ⟨fun _ _ => ⟨unclaimed_consistent _, rfl, rfl, rfl⟩, by decide⟩

/-- A legal word and an illegal one. -/
theorem witness_DisabledReceiveIgnoresThePulsePort :
    let words : List Word := [0x0100000000002194, 0x2200000000000000]
    let s := { State.reset with arrivals := words.map (Arrival.operation .pulse) }
    s.rxEn = false ∧ words ≠ [] ∧ s.arrivals = words.map (Arrival.operation .pulse) ++ [] := by decide

theorem witness_RxRearmRestartsReceive : unclaimed.rxPinValid = true ∧ State.reset.rxPinValid = false := ⟨rfl, rfl⟩

theorem witness_RxSetTolSetsTheTolerance : (100 : BitVec 8).toNat ≤ 100 ∧ 100 < (101 : BitVec 8).toNat := by decide

theorem witness_RxGetRawReadsOneSlot :
    (66 : BitVec 8).toNat < unclaimed.params.capacity ∧ unclaimed.params.capacity ≤ (67 : BitVec 8).toNat ∧
    unclaimed.params.capacity ≤ (255 : BitVec 8).toNat := by decide

theorem witness_RxGetConfigReadsTheControlRegisters : unclaimed.params.legal := by decide

theorem witness_ControlRegisterWriters :
    (∃ t, exec .rxRearm unclaimed = .next t) ∧ unclaimed.rxPinValid = true ∧ ∃ t, exec .rxDisable unclaimed = .next t :=
  ⟨⟨_, rfl⟩, rfl, ⟨_, rfl⟩⟩

theorem witness_HostOnlyClearsCaptureState :
    (∃ t, exec (.edge 4500) threeBits = .next t ∧ ¬ sameReceiver threeBits t) ∧
    Instr.rxResetAvailable.port = .host ∧ ∃ t, exec .rxResetAvailable unclaimed = .next t :=
  ⟨⟨_, rfl, by decide⟩, rfl, ⟨_, rfl⟩⟩

theorem witness_HostCannotReadHiddenState :
    (Instr.rxGetRaw 66).port = .host ∧ (∃ t, exec (.rxGetRaw 66) unclaimed = .next t) ∧
    ∃ t, exec (.rxGetRaw 66) { unclaimed with cc := 67, rc := 1, lastTime := 1 } = .next t :=
  ⟨rfl, ⟨_, rfl⟩, ⟨_, rfl⟩⟩

theorem witness_PinHasNoEffectOnReceive : ∃ t, exec (.edge 4500) threeBits = .next t := ⟨_, rfl⟩

theorem witness_CipherIsStateless :
    State.reset.params.key = defaultParams.key ∧ State.reset.params.ikey = defaultParams.ikey ∧
    ∃ t, exec (.edge 0) State.reset = .next t := ⟨rfl, rfl, ⟨_, rfl⟩⟩

theorem witness_KnownCipherVector :
    State.reset.params.key = defaultParams.key ∧ State.reset.params.ikey = defaultParams.ikey := ⟨rfl, rfl⟩

theorem witness_RoundTripForLegalTables : defaultParams.tablesLegal ∧ (9 : BitVec 8).toNat ≤ 9 := by decide

theorem witness_CipherOperationsRoundTrip :
    otherParams.tablesLegal ∧ (9 : BitVec 8).toNat ≤ 9 ∧ (State.resetWith otherParams).params = otherParams := by decide

theorem witness_EncryptReducesItsFields : 10 ≤ (10 : BitVec 8).toNat ∧ 10 ≤ (255 : BitVec 8).toNat := by decide

/-- V-C1: a code that some encrypt produces. -/
theorem witness_ReencryptionFixesEncryptedCodes :
    defaultParams.tablesLegal ∧ encryptWith defaultParams 1 1 0 0x1234 = 0x24B4D96 := by decide

end Sys2Proof.Tests
end

section
/-! PROOFS. R35: the cipher holds no state. Decrypt depends on the parameter record through IKEY alone and encrypt
through KEY alone; and no operation writes the record. -/

namespace Sys2Proof.Machine

open Sys2Proof.Config

section
variable {p q : Params}

theorem unsubstitute_eq_of_ikey_eq (h : p.ikey = q.ikey) : unsubstitute p = unsubstitute q := by
  funext r x
  simp only [unsubstitute, h]

theorem substitute_eq_of_key_eq (h : p.key = q.key) : substitute p = substitute q := by
  funext s x
  simp only [substitute, h]

theorem decryptRound_eq_of_ikey_eq (h : p.ikey = q.ikey) : decryptRound p = decryptRound q := by
  funext r n
  simp only [decryptRound, unsubstitute_eq_of_ikey_eq h]

theorem encryptRound_eq_of_key_eq (h : p.key = q.key) : encryptRound p = encryptRound q := by
  funext s n
  simp only [encryptRound, substitute_eq_of_key_eq h]

/-- Of the parameter record, decrypt reads IKEY alone. -/
theorem decryptWith_eq_of_ikey_eq (h : p.ikey = q.ikey) : decryptWith p = decryptWith q := by
  funext code
  simp only [decryptWith, decryptRound_eq_of_ikey_eq h]

/-- Of the parameter record, encrypt reads KEY alone. -/
theorem encryptWith_eq_of_key_eq (h : p.key = q.key) : encryptWith p = encryptWith q := by
  funext rid val rcode tid
  simp only [encryptWith, encryptRound_eq_of_key_eq h]

end

theorem exec_cipherDecrypt (code : Code) (s : State) :
    exec (.cipherDecrypt code) s = .next (responding s .ok (fieldsData (decryptWith s.params code))) := rfl

theorem exec_cipherEncrypt (rid : Nibble) (val rcode : BitVec 8) (tid : BitVec 16) (s : State) :
    exec (.cipherEncrypt rid val rcode tid) s =
      .next (responding s .ok ((encryptWith s.params rid val rcode tid).setWidth 32)) := rfl

theorem decodeFrame_params {p : Params} {n : Nat} {s t : State} (h : decodeFrame p n s = .next t) :
    t.params = s.params := by
  obtain rfl | ⟨value, -, -, rfl⟩ := decodeFrame_cases h
  · rfl
  · rfl

theorem edgeWith_params {p : Params} {time : Micros} {s t : State} (h : edgeWith p time s = .next t) :
    t.params = s.params := by
  obtain ⟨-, rfl⟩ | ⟨-, -, -, r, hr, rfl⟩ | ⟨-, -, -, rfl⟩ | ⟨-, -, rfl⟩ | ⟨-, -, rfl⟩ := edgeWith_cases h
  · rfl
  · exact (storeDuration_params ..).trans (decodeFrame_params hr)
  · rfl
  · rfl
  · rfl

theorem exec_host_params {i : Instr} {s t : State} (hi : i.port = .host) (h : exec i s = .next t) :
    t.params = s.params := by
  obtain ⟨u, r, he, hu⟩ := exec_host_cases s hi
  obtain rfl : { u with response := some r } = t := Host.Outcome.next.inj (he.symm.trans h)
  obtain ⟨rfl, -⟩ | ⟨-, ⟨pin, -, rfl⟩ | ⟨-, -, rfl⟩ | ⟨-, rfl⟩ | ⟨pct, -, -, rfl⟩ | ⟨-, rfl⟩⟩ := hu
  all_goals rfl

/-- No operation writes the parameter record, the tables among it. -/
theorem exec_params {i : Instr} {s t : State} (h : exec i s = .next t) : t.params = s.params := by
  match hi : i.port with
  | .host => exact exec_host_params hi h
  | .pulse =>
    obtain ⟨time, rfl⟩ := pulse_is_edge hi
    exact edgeWith_params h

/-- A record with the given tables: which one is immaterial, since the cipher reads nothing else of it. -/
def recordWithTables (key : Vector Nibble 17) (ikey : Vector Nibble 16) : Params :=
  { defaultParams with key := key, ikey := ikey }

/-- Settles O44: the response in every state is the one computed from `recordWithTables key ikey`. -/
theorem cipherIsStateless : Obligations.CipherIsStateless := by
  unfold Obligations.CipherIsStateless
  intro key ikey
  refine ⟨fun code => ?_, fun rid val rcode tid => ?_, fun i s t h => ?_⟩
  · refine ⟨fieldsData (decryptWith (recordWithTables key ikey) code), fun s _ hikey => ?_⟩
    rw [exec_cipherDecrypt, decryptWith_eq_of_ikey_eq (q := recordWithTables key ikey) hikey]
  · refine ⟨(encryptWith (recordWithTables key ikey) rid val rcode tid).setWidth 32, fun s hkey _ => ?_⟩
    rw [exec_cipherEncrypt, encryptWith_eq_of_key_eq (q := recordWithTables key ikey) hkey]
  · rw [exec_params h]
    exact ⟨rfl, rfl⟩

end Sys2Proof.Machine
end

section
/-! PROOFS. R71 to R73: a word with an unassigned opcode, a reserved bit that is 1, or the wrong port is accepted by no
port, and a word that is not accepted is refused with no other change. -/

namespace Sys2Proof

/-- R62 on the opcode values: EDGE's is the only one of the pulse port. -/
theorem Opcode.port_eq_pulse_iff (o : Opcode) : o.port = .pulse ↔ o.code = 0x01 := by
  cases o <;> decide

/-- The reserved bits of a word as a number: what stands between the operands and the opcode. -/
theorem Format.reserved_zero_iff_toNat (f : Format) (w : Word) :
    w &&& f.reserved = 0 ↔ w.toNat % 2 ^ 56 / 2 ^ f.operandWidth = 0 := by
  have bit (j : Nat) : (w.toNat % 2 ^ 56 / 2 ^ f.operandWidth).testBit j =
      (decide (j + f.operandWidth < 56) && w.getLsbD (j + f.operandWidth)) := by
    rw [Nat.testBit_div_two_pow, Nat.testBit_mod_two_pow, BitVec.testBit_toNat, Nat.add_comm]
  rw [f.reserved_zero_iff w]
  constructor
  · intro h
    refine Nat.eq_of_testBit_eq fun j => ?_
    rw [bit, Nat.zero_testBit, Bool.and_eq_false_imp]
    exact fun hj => h _ (Nat.le_add_left ..) (of_decide_eq_true hj)
  · intro h i hk hi
    have hb := bit (i - f.operandWidth)
    rw [h, Nat.zero_testBit, Nat.sub_add_cancel hk] at hb
    simpa [hi] using hb.symm

/-- What an accepted word is: one that carries the opcode of its operation, has every reserved bit 0, and is on the
opcode's port. -/
theorem accept_ok_opcode {port : Port} {w : Word} {i : Instr} (h : accept port w = .ok i) :
    opcodeField w = i.opcode.code ∧ w &&& i.opcode.format.reserved = 0 ∧ i.opcode.port = port := by
  obtain ⟨hdecode, hport⟩ := accept_ok.mp h
  obtain ⟨hcode, hreserved, -⟩ := decode_ok.mp hdecode
  exact ⟨hcode, hreserved, hport⟩

end Sys2Proof

namespace Sys2Proof.Machine

/-- R71's list holds none of the OPC values of R70. -/
theorem code_not_unassigned (o : Opcode) : ¬ UnassignedOpc o.code := by
  cases o <;> decide

theorem operandBits_code (o : Opcode) : operandBits o.code = o.format.operandWidth := by
  cases o <;> rfl

section
variable {port : Port} {w : Word}

/-- R71. -/
theorem accept_ne_ok_of_unassigned (h : UnassignedOpc (opcodeField w)) (i : Instr) : accept port w ≠ .ok i := by
  intro ha
  obtain ⟨hcode, -, -⟩ := accept_ok_opcode ha
  exact code_not_unassigned i.opcode (hcode ▸ h)

/-- R72. -/
theorem accept_ne_ok_of_reservedBitSet (h : ReservedBitSet w) (i : Instr) : accept port w ≠ .ok i := by
  intro ha
  obtain ⟨hcode, hreserved, -⟩ := accept_ok_opcode ha
  rw [ReservedBitSet, hcode, operandBits_code] at h
  exact h ((Format.reserved_zero_iff_toNat _ w).mp hreserved)

/-- R73 on the host port. -/
theorem accept_host_ne_ok_of_edge (h : opcodeField w = 0x01) (i : Instr) : accept .host w ≠ .ok i := by
  intro ha
  obtain ⟨hcode, -, hport⟩ := accept_ok_opcode ha
  have hpulse : i.opcode.port = .pulse := i.opcode.port_eq_pulse_iff.mpr (hcode.symm.trans h)
  cases hport.symm.trans hpulse

/-- R73 on the pulse port. -/
theorem accept_pulse_ne_ok_of_not_edge (h : opcodeField w ≠ 0x01) (i : Instr) : accept .pulse w ≠ .ok i := by
  intro ha
  obtain ⟨hcode, -, hport⟩ := accept_ok_opcode ha
  exact h (hcode.trans (i.opcode.port_eq_pulse_iff.mp hport))

theorem refuseWord_eq_afterIllegal (port : Port) (rest : List Arrival) (s : State) :
    refuseWord port { s with arrivals := rest } = .next (afterIllegal port rest s) := by
  cases port <;> rfl

theorem step_operation {s : State} {rest : List Arrival} (h : s.arrivals = .operation port w :: rest) :
    step s = stepWord port w { s with arrivals := rest } := by
  rw [step, h]

/-- A delivered word that its port does not accept is refused, and the step does nothing else. -/
theorem step_of_not_accepted {s : State} {rest : List Arrival} (h : s.arrivals = .operation port w :: rest)
    (hno : ∀ i, accept port w ≠ .ok i) : step s = .next (afterIllegal port rest s) := by
  rw [step_operation h]
  obtain ⟨i, hi, -⟩ | ⟨-, hrefuse⟩ := stepWord_cases port w { s with arrivals := rest }
  · exact absurd hi (hno i)
  · exact hrefuse.trans (refuseWord_eq_afterIllegal port rest s)

end

/-- Settles O7: each clause names a word that its port does not accept. -/
theorem illegalWordsChangeNothing : Obligations.IllegalWordsChangeNothing := by
  unfold Obligations.IllegalWordsChangeNothing
  intro s w rest port harr
  refine ⟨fun h => ?_, fun _ h => ?_, fun h hport => ?_, fun _ h hport => ?_⟩
  · exact step_of_not_accepted harr (accept_ne_ok_of_unassigned h)
  · exact step_of_not_accepted harr (accept_ne_ok_of_reservedBitSet h)
  · subst hport
    exact step_of_not_accepted harr (accept_host_ne_ok_of_edge h)
  · subst hport
    exact step_of_not_accepted harr (accept_pulse_ne_ok_of_not_edge h)

end Sys2Proof.Machine
end

section
/-! PROOFS. 40_capture_assembly.md: what every EDGE that is not dropped stores and what it leaves (R106, R110), the EDGE
dropped with receive disabled (R102), and the long gap (R107). -/

namespace Sys2Proof.Machine

open Sys2Proof.Config

/-! ### One lemma for each thing an EDGE does -/

theorem exec_edge (time : Micros) (s : State) : exec (.edge time) s = edgeWith s.params time s := rfl

/-- R102. -/
theorem edgeWith_disabled {s : State} (p : Params) (time : Micros) (hen : s.rxEn = false) :
    edgeWith p time s = .next { s with response := none } := by
  simp [edgeWith, dropOperation, hen]

/-- R107, before the overflow guard is resolved. -/
theorem edgeWith_longGap {p : Params} {time : Micros} {s : State} (hen : s.rxEn = true)
    (hgap : p.gapHi < (duration s time).toNat) :
    edgeWith p time s = .next (storeDuration p 0 s.rc.toNat (duration s time) time s) := by
  rw [edgeWith, if_pos hen, classifyDuration_longGap.mpr hgap]

/-- The store of an EDGE that decodes nothing, in the terms of `afterStore`. -/
theorem storeDuration_eq_afterStore (s : State) (cc rc : Nat) (time : Micros) :
    storeDuration s.params cc rc (duration s time) time s =
      afterStore s s (guardedIndex s.params cc) (guardedRepeat s.params cc rc) time := rfl

/-- What a decode leaves as it was for the store after it: the buffer, the control registers and the arrivals. -/
structure KeptByDecode (s r : State) : Prop where
  buf : r.buf = s.buf
  control : sameControl s r
  arrivals : r.arrivals = s.arrivals

theorem KeptByDecode.refl (s : State) : KeptByDecode s s := ⟨rfl, ⟨rfl, rfl, rfl, rfl⟩, rfl⟩

theorem KeptByDecode.publish (s : State) (code : BitVec 32) (bits delay : Nat) :
    KeptByDecode s (s.publish code bits delay) := ⟨rfl, ⟨rfl, rfl, rfl, rfl⟩, rfl⟩

/-- DECODE writes ReceiverState alone (R131, R132). -/
theorem decodeFrame_keeps {p : Params} {n : Nat} {s r : State} (h : decodeFrame p n s = .next r) :
    KeptByDecode s r := by
  obtain rfl | ⟨value, -, -, rfl⟩ := decodeFrame_cases h
  · exact .refl r
  · exact .publish s value _ _

/-- The change count the overflow guard sees: an ordinary duration keeps it, a boundary and a long gap reset it (R106,
R107). -/
def changeCountAfter (p : Params) (cc : Nat) (d : Micros) : Nat :=
  if classifyDuration p d = .ordinary then cc else 0

theorem changeCountAfter_ordinary {p : Params} {cc : Nat} {d : Micros} (h : classifyDuration p d = .ordinary) :
    changeCountAfter p cc d = cc := if_pos h

theorem changeCountAfter_reset {p : Params} {cc : Nat} {d : Micros} (h : classifyDuration p d ≠ .ordinary) :
    changeCountAfter p cc d = 0 := if_neg h

theorem guardedIndex_changeCountAfter (p : Params) (cc : Nat) (d : Micros) :
    guardedIndex p (changeCountAfter p cc d) =
      if classifyDuration p d = .ordinary then guardedIndex p cc else 0 := by
  rw [changeCountAfter, apply_ite (guardedIndex p), guardedIndex_zero]

/-- Every EDGE that is not dropped ends in one store of its duration, into the old state or what a decode makes of it. -/
theorem edgeWith_stores {p : Params} {time : Micros} {s t : State} (hen : s.rxEn = true)
    (h : edgeWith p time s = .next t) :
    ∃ rc r, KeptByDecode s r ∧
      t = storeDuration p (changeCountAfter p s.cc.toNat (duration s time)) rc (duration s time) time r := by
  obtain ⟨hdis, -⟩ | ⟨-, hc, -, r, hr, ht⟩ | ⟨-, hc, -, ht⟩ | ⟨-, hc, ht⟩ | ⟨-, hc, ht⟩ := edgeWith_cases h
  · cases hen.symm.trans hdis
  · exact ⟨_, r, decodeFrame_keeps hr, by rw [changeCountAfter_reset (hc.trans_ne nofun), ht]⟩
  · exact ⟨_, s, .refl s, by rw [changeCountAfter_reset (hc.trans_ne nofun), ht]⟩
  · exact ⟨_, s, .refl s, by rw [changeCountAfter_reset (hc.trans_ne nofun), ht]⟩
  · exact ⟨_, s, .refl s, by rw [changeCountAfter_ordinary hc, ht]⟩

/-- The 8 bits of CC hold the count one above any slot, since CAPACITY is at most 255 (R8, R27). -/
theorem toNat_ofNat_succ_slot {p : Params} (hp : p.rangesLegal) {slot : Nat} (h : slot < p.capacity) :
    (BitVec.ofNat 8 (slot + 1)).toNat = slot + 1 := by
  obtain ⟨-, hcap, -⟩ := hp
  rw [BitVec.toNat_ofNat, Nat.mod_eq_of_lt (by omega)]

/-- R29: LAST_TIME is EDGE's alone. -/
theorem exec_host_lastTime {i : Instr} {s t : State} (hi : i.port = .host) (h : exec i s = .next t) :
    t.lastTime = s.lastTime := by
  obtain ⟨u, r, he, hu⟩ := exec_host_cases s hi
  obtain rfl : { u with response := some r } = t := Host.Outcome.next.inj (he.symm.trans h)
  obtain ⟨rfl, -⟩ | ⟨-, ⟨pin, -, rfl⟩ | ⟨-, -, rfl⟩ | ⟨-, rfl⟩ | ⟨pct, -, -, rfl⟩ | ⟨-, rfl⟩⟩ := hu
  all_goals rfl

/-! ### The statements -/

/-- Settles O26: `edgeWith_stores` gives the one store, and the laws of the buffer what it leaves at each slot. -/
theorem edgeStoresOneDuration : Obligations.EdgeStoresOneDuration := by
  unfold Obligations.EdgeStoresOneDuration
  intro s t time hp hwf hen h
  obtain ⟨hranges, -⟩ := hp
  obtain ⟨rc, r, ⟨hbuf, hcontrol, harr⟩, rfl⟩ := edgeWith_stores hen h
  have hcap : 0 < s.params.capacity := Nat.lt_of_lt_of_le (by decide) hranges.1
  refine ⟨rfl, fun hb => ?_, ?_, hcontrol, harr⟩
  · rw [storeDuration_buf, storeDuration_cc, changeCountAfter_reset ((classifyDuration_boundary.mpr hb).trans_ne nofun),
      guardedIndex_zero, hbuf]
    exact ⟨Memory.read_write_same hwf, rfl⟩
  · rw [← guardedIndex_changeCountAfter, storeDuration_buf, storeDuration_cc, hbuf]
    have hslot := guardedIndex_lt hcap (changeCountAfter s.params s.cc.toNat (duration s time))
    exact ⟨Memory.read_write_same hwf, toNat_ofNat_succ_slot hranges hslot, hslot,
      fun _ hother => Memory.read_write_other hwf hother⟩

/-- Settles O20: the drop, and LAST_TIME kept by the two host operations that turn receive on again. -/
theorem disabledEdgeIsDropped : Obligations.DisabledEdgeIsDropped := by
  unfold Obligations.DisabledEdgeIsDropped
  intro s time hen
  have keeps {i : Instr} {t : State} (later : Micros) (hi : i.port = .host) (h : exec i s = .next t) :
      t.lastTime = s.lastTime ∧ duration t later = later - s.lastTime :=
    have hlast := exec_host_lastTime hi h
    ⟨hlast, congrArg (later - ·) hlast⟩
  refine ⟨?_, fun pin t later => keeps later rfl, fun t later => keeps later rfl⟩
  rw [exec_edge, edgeWith_disabled s.params time hen]

/-- Settles O22: with a change count of 0 the overflow guard of a legal block does nothing. -/
theorem longGapOpensAFrame : Obligations.LongGapOpensAFrame := by
  unfold Obligations.LongGapOpensAFrame
  intro s time hp hen hgap
  obtain ⟨⟨hcap, -⟩, -⟩ := hp
  obtain ⟨hindex, hrepeat⟩ := guarded_inside (p := s.params) (cc := 0) (by omega) s.rc.toNat
  rw [exec_edge, edgeWith_longGap hen hgap, storeDuration_eq_afterStore, hindex, hrepeat]

end Sys2Proof.Machine
end

section
/-! PROOFS. 41_bit_decoder.md: a pair is classified by its windows (R123 to R126), and the second boundary publishes the
frame whose pairs all classify (R127, R128, R131) and nothing otherwise (R132). -/

namespace Sys2Proof.Machine

open Sys2Proof.Config

/-! ### Windows and pairs -/

section
variable {delay tol : Nat} {a b : Micros} {bit : Bool}

/-- R123. -/
theorem inWindow_iff {c : Nat} {x : Micros} : inWindow tol c x = true ↔ InOpenWindow c tol x := by
  rw [inWindow, Bool.and_eq_true, decide_eq_true_iff, decide_eq_true_iff]

/-- R122: a tolerance of at most 100 percent is at most the unit. -/
theorem frameTol_le_delay {pct : BitVec 7} (h : pct.toNat ≤ 100) : frameTol delay pct ≤ delay :=
  Nat.div_le_of_le_mul (Nat.mul_comm 100 delay ▸ Nat.mul_le_mul_left delay h)

/-- R126: with a tolerance of at most the unit no duration fits both windows. -/
theorem not_inOpenWindow_triple {x : Micros} (htol : tol ≤ delay) (h : InOpenWindow delay tol x) :
    ¬ InOpenWindow (3 * delay) tol x := by
  unfold InOpenWindow at *
  omega

/-- A pair that is read as a bit stands for it, at any tolerance. -/
theorem pairIs_of_classifyPair (h : classifyPair delay tol a b = some bit) : PairIs delay tol bit a b := by
  obtain ⟨ha, hb⟩ := classifyPair_some h
  cases bit
  · exact ⟨inWindow_iff.mp ha, inWindow_iff.mp hb⟩
  · exact ⟨inWindow_iff.mp ha, inWindow_iff.mp hb⟩

/-- A pair that stands for a bit is read as it; for a 1 the test for a 0, which comes first, fails by R126. -/
theorem classifyPair_of_pairIs (htol : tol ≤ delay) (h : PairIs delay tol bit a b) :
    classifyPair delay tol a b = some bit := by
  unfold classifyPair
  simp only [Bool.and_eq_true, inWindow_iff]
  cases bit with
  | false => exact if_pos h
  | true =>
    obtain ⟨ha, hb⟩ := h
    have notZero : ¬ (InOpenWindow delay tol a ∧ InOpenWindow (3 * delay) tol b) :=
      fun ⟨hunit, _⟩ => not_inOpenWindow_triple htol hunit ha
    rw [if_neg notZero, if_pos ⟨ha, hb⟩]

theorem classifyPair_eq_some_iff (htol : tol ≤ delay) :
    classifyPair delay tol a b = some bit ↔ PairIs delay tol bit a b :=
  ⟨pairIs_of_classifyPair, classifyPair_of_pairIs htol⟩

end

/-! ### Frames -/

/-- R128: shifting bits in one by one computes their number mod 2^32. -/
theorem foldl_shiftIn_ofNat (bits : List Bool) (n : Nat) :
    bits.foldl shiftIn (BitVec.ofNat 32 n) = BitVec.ofNat 32 (bits.foldl (fun acc b => 2 * acc + b.toNat) n) := by
  induction bits generalizing n with
  | nil => rfl
  | cons bit bits ih => rw [List.foldl_cons, List.foldl_cons, shiftIn_ofNat, ih]

/-- The pairs of the frame a boundary closes lie inside the buffer (R127, R136). -/
theorem frame_pairs_inside {s : State} {capacity : Nat} (hpos : 0 < capacity) (hcc : s.cc.toNat ≤ capacity) :
    1 + 2 * (frameLength s / 2) ≤ capacity := by
  unfold frameLength
  omega

/-- A frame inside the buffer whose pairs stand for the bits reads as their number mod 2^32. -/
theorem readFrame_of_pairs {p : Params} {s : State} {n : Nat} {bits : List Bool}
    (hinside : 1 + 2 * (n / 2) ≤ p.capacity) (htol : s.tolPct.toNat ≤ 100) (hlen : bits.length = n / 2)
    (hpairs : ∀ k bit, bits[k]? = some bit → FramePairIs s k bit) :
    readFrame p s n = .code (BitVec.ofNat 32 (bitsValue bits)) := by
  rw [readFrame, ← hlen, bitsValue, ← foldl_shiftIn_ofNat]
  refine readPairs_code bits 1 0 (hlen ▸ hinside) fun k bit hk => ?_
  rw [Nat.add_comm 1 (2 * k)]
  exact classifyPair_of_pairIs (frameTol_le_delay htol) (hpairs k bit hk)

/-- A frame that reads as a code has no pair outside the windows of both bits. -/
theorem framePairIs_of_readFrame {p : Params} {s : State} {n k : Nat} {value : BitVec 32}
    (h : readFrame p s n = .code value) (hk : k < n / 2) : ∃ bit, FramePairIs s k bit := by
  obtain ⟨bit, hbit⟩ := readPairs_classified (n / 2) 1 0 value h k hk
  rw [Nat.add_comm 1 (2 * k)] at hbit
  exact ⟨bit, pairIs_of_classifyPair hbit⟩

/-- R131. -/
theorem decodeFrame_publishes {p : Params} {s : State} {n : Nat} {value : BitVec 32}
    (h : readFrame p s n = .code value) (hn : minChanges < n) :
    decodeFrame p n s = .next (s.publish value (n / 2) (frameDelay s.buf)) := by
  simp only [decodeFrame, h, if_pos hn]

/-- R132: a frame inside the buffer that is too short, or has a pair that stands for no bit, decodes to no change. -/
theorem decodeFrame_fails {p : Params} {s : State} {n : Nat} (hinside : n < p.capacity)
    (h : n ≤ minChanges ∨ ∃ k, k < n / 2 ∧ ∀ bit, ¬ FramePairIs s k bit) : decodeFrame p n s = .next s := by
  obtain ⟨r, hr⟩ := decodeFrame_inside (s := s) hinside
  obtain rfl | ⟨value, hread, hn, -⟩ := decodeFrame_cases hr
  · exact hr
  · obtain hshort | ⟨k, hk, hnone⟩ := h
    · exact absurd hn (Nat.not_lt_of_le hshort)
    · obtain ⟨bit, hbit⟩ := framePairIs_of_readFrame hread hk
      exact absurd hbit (hnone bit)

/-! ### The second boundary -/

/-- R104, R105: the boundary met with a repeat count of 1 stores after the decode, with both counts reset. -/
theorem edgeWith_secondBoundary {p : Params} {time : Micros} {s r : State} (hen : s.rxEn = true)
    (hb : classifyDuration p (duration s time) = .boundary) (hrc : s.rc = 1)
    (hr : decodeFrame p (frameLength s) s = .next r) :
    edgeWith p time s = .next (storeDuration p 0 0 (duration s time) time r) := by
  have hcount : s.rc.toNat + 1 = 2 := by rw [hrc]; rfl
  simp only [edgeWith, if_pos hen, hb, edgeBoundary, if_pos hcount, hr]

/-- The store after a decode, in the terms of `afterStore`. -/
theorem storeDuration_decoded {p : Params} {n : Nat} {s r : State} (time : Micros)
    (hr : decodeFrame p n s = .next r) :
    storeDuration p 0 0 (duration s time) time r = afterStore s r 0 0 time := by
  rw [storeDuration, guardedIndex_zero, guardedRepeat_zero]
  obtain rfl | ⟨value, -, -, rfl⟩ := decodeFrame_cases hr
  · rfl
  · rfl

theorem exec_edge_secondBoundary {time : Micros} {s r : State} (hen : s.rxEn = true) (hb : IsBoundary s time)
    (hrc : s.rc = 1) (hr : decodeFrame s.params (frameLength s) s = .next r) :
    exec (.edge time) s = .next (afterStore s r 0 0 time) := by
  rw [exec_edge, edgeWith_secondBoundary hen (classifyDuration_boundary.mpr hb) hrc hr, storeDuration_decoded time hr]

/-! ### The statements -/

/-- Settles O27: a legal tolerance is at most the unit, so the two classes are disjoint. -/
theorem pairsClassifyByTheirWindows : Obligations.PairsClassifyByTheirWindows := by
  unfold Obligations.PairsClassifyByTheirWindows
  intro delay pct a b bit hpct
  exact classifyPair_eq_some_iff (frameTol_le_delay hpct)

/-- Settles O24: the frame reads as its bits, so the decode before the store publishes them. -/
theorem secondBoundaryPublishesTheFrame : Obligations.SecondBoundaryPublishesTheFrame := by
  unfold Obligations.SecondBoundaryPublishesTheFrame
  intro s time bits hen hb hrc hcc htol hn hlen hpairs
  have hinside : 1 + 2 * (frameLength s / 2) ≤ s.params.capacity := frame_pairs_inside (by omega) hcc
  have hread : readFrame s.params s (frameLength s) = .code (BitVec.ofNat 32 (bitsValue bits)) :=
    readFrame_of_pairs hinside htol hlen hpairs
  exact exec_edge_secondBoundary hen hb hrc (decodeFrame_publishes hread hn)

/-- Settles O25: the decode before the store changes nothing. -/
theorem failedDecodePublishesNothing : Obligations.FailedDecodePublishesNothing := by
  unfold Obligations.FailedDecodePublishesNothing
  intro s time ⟨⟨hcap, _⟩, _⟩ hen hb hrc hcc hfail
  have hinside : frameLength s < s.params.capacity := by unfold frameLength; omega
  exact exec_edge_secondBoundary hen hb hrc (decodeFrame_fails hinside hfail)

end Sys2Proof.Machine
end

section
/-! PROOFS. R141, R148, R159: the two rotations are the 28-bit rotations by 2, which undo each other, and CIPHER_ENCRYPT
refuses no operand value. -/

namespace Sys2Proof.Machine

/-! ### The rotations -/

/-- R141: what the shift right leaves is inside 28 bits, so the mod cuts the shift left alone. -/
theorem toNat_rotl28 (v : Code) : (rotl28 v).toNat = (v.toNat <<< 2 ||| v.toNat >>> 26) % 2 ^ 28 := by
  have inside : v.toNat >>> 26 < 2 ^ 28 := (Nat.shiftRight_le ..).trans_lt v.isLt
  rw [Nat.or_mod_two_pow, Nat.mod_eq_of_lt inside]
  rfl

/-- R148, by the same reason as `toNat_rotl28`. -/
theorem toNat_rotr28 (v : Code) : (rotr28 v).toNat = (v.toNat >>> 2 ||| (v.toNat &&& 3) <<< 26) % 2 ^ 28 := by
  have inside : v.toNat >>> 2 < 2 ^ 28 := (Nat.shiftRight_le ..).trans_lt v.isLt
  rw [Nat.or_mod_two_pow, Nat.mod_eq_of_lt inside]
  rfl

theorem rotl28_eq_rotateLeft (v : Code) : rotl28 v = v.rotateLeft 2 := rfl

/-- The mask of R148 clears only bits that the shift by 26 drops. -/
theorem rotr28_eq_rotateRight (v : Code) : rotr28 v = v.rotateRight 2 := by
  have mask : (3 : Code) <<< 26 = BitVec.allOnes 28 <<< 26 := rfl
  rw [rotr28, BitVec.shiftLeft_and_distrib, mask, BitVec.and_comm, BitVec.allOnes_shiftLeft_and_shiftLeft]
  rfl

/-- Where the left rotation takes each bit from: the top two wrap to the bottom (R141). -/
theorem getElem_rotl28 (v : Code) {i : Nat} (hi : i < 28) :
    (rotl28 v)[i] = if h : i < 2 then v[26 + i] else v[i - 2] := by
  simp only [rotl28_eq_rotateLeft]
  exact BitVec.getElem_rotateLeft hi

/-- Where the right rotation takes each bit from: the bottom two wrap to the top (R148). -/
theorem getElem_rotr28 (v : Code) {i : Nat} (hi : i < 28) :
    (rotr28 v)[i] = if h : i < 26 then v[2 + i] else v[i - 26] := by
  simp only [rotr28_eq_rotateRight]
  exact BitVec.getElem_rotateRight hi

@[simp] theorem rotr28_rotl28 (v : Code) : rotr28 (rotl28 v) = v := by
  refine BitVec.eq_of_getElem_eq fun i hi => ?_
  rw [getElem_rotr28]
  split
  next moved =>
    have above : ¬ 2 + i < 2 := by omega
    rw [getElem_rotl28, dif_neg above]
    simp only [Nat.add_sub_cancel_left]
  next wrapped =>
    have bottom : i - 26 < 2 := by omega
    have back : 26 + (i - 26) = i := by omega
    rw [getElem_rotl28, dif_pos bottom]
    simp only [back]

@[simp] theorem rotl28_rotr28 (v : Code) : rotl28 (rotr28 v) = v := by
  refine BitVec.eq_of_getElem_eq fun i hi => ?_
  rw [getElem_rotl28]
  split
  next wrapped =>
    have top : ¬ 26 + i < 26 := by omega
    rw [getElem_rotr28, dif_neg top]
    simp only [Nat.add_sub_cancel_left]
  next moved =>
    have below : i - 2 < 26 := by omega
    have back : 2 + (i - 2) = i := by omega
    rw [getElem_rotr28, dif_pos below]
    simp only [back]

/-- Settles O46: the formulas of R141 and R148, and each bit taken back to its place. -/
theorem rotationsAreInverse : Obligations.RotationsAreInverse := by
  unfold Obligations.RotationsAreInverse
  exact fun v => ⟨toNat_rotl28 v, toNat_rotr28 v, rotr28_rotl28 v, rotl28_rotr28 v⟩

/-! ### Encrypt -/

/-- Settles O45: the code is `encryptWith`'s, which has 28 bits by its type and is computed for every field. -/
theorem encryptIsTotal : Obligations.EncryptIsTotal := by
  unfold Obligations.EncryptIsTotal
  intro rid val rcode tid s
  exact ⟨encryptWith s.params rid val rcode tid, exec_cipherEncrypt rid val rcode tid s⟩

end Sys2Proof.Machine
end

section
/-! PROOFS. 43_host_interface.md: what each operation of the host interface answers and changes (R165 to R175), and that
the host can only clear what the receive path has captured (R179). -/

namespace Sys2Proof.Machine

open Sys2Proof.Config

/-! ### Words, results and slots -/

/-- R65. -/
theorem toNat_wordB (o b : BitVec 8) : (wordB o b).toNat = o.toNat * 2 ^ 56 + b.toNat := by
  rw [wordB, toNat_append_add, toNat_append_add, BitVec.toNat_zero]
  omega

theorem flagData_eq_ite (b : Bool) : flagData b = if b then 1 else 0 := by
  cases b with
  | false => rfl
  | true => rfl

/-- A PCT in range fits the 7 bits of TOL_PCT (R25). -/
theorem toNat_pctValue {pct : BitVec 8} (h : pct.toNat ≤ 100) : (pctValue pct).toNat = pct.toNat := by
  rw [pctValue, BitVec.toNat_setWidth, Nat.mod_eq_of_lt (by omega)]

/-- The layout under R175: a CAPACITY of at most 255 fits its byte (R8). -/
theorem toNat_configData {p : Params} (s : State) (hcap : p.capacity ≤ 255) :
    (configData p s).toNat = p.capacity * 2 ^ 24 + s.tolPct.toNat * 2 ^ 16 + s.rxPin.toNat * 2 ^ 8 +
      s.rxPinValid.toNat * 2 + s.rxEn.toNat := by
  have hbyte : p.capacity % 2 ^ 8 = p.capacity := Nat.mod_eq_of_lt (by omega)
  simp only [configData, toNat_append_add, BitVec.toNat_ofNat, BitVec.toNat_ofBool, hbyte]
  omega

/-- R45. -/
theorem readSlot_outside {p : Params} {m : Memory} {a : Nat} (h : p.capacity ≤ a) : readSlot p m a = none :=
  if_neg (Nat.not_lt_of_le h)

/-! ### One rule for each operation, and for each case of one that has cases -/

theorem exec_rxEnable (pin : BitVec 8) (s : State) :
    exec (.rxEnable pin) s = .next (responding (s.enableReceive pin) .ok 0) := rfl

/-- R166 with a pin. -/
theorem exec_rxRearm_of_pin {s : State} (h : s.rxPinValid = true) :
    exec .rxRearm s = exec (.rxEnable s.rxPin) s :=
  congrArg (respond .ok 0) (if_pos h)

/-- R166 with none. -/
theorem exec_rxRearm_of_no_pin {s : State} (h : s.rxPinValid = false) :
    exec .rxRearm s = .next (responding s .ok 0) :=
  congrArg (respond .ok 0) (if_neg (Bool.eq_false_iff.mp h))

theorem exec_rxDisable (s : State) : exec .rxDisable s = .next (responding { s with rxEn := false } .ok 0) := rfl

/-- R168 in range. -/
theorem exec_rxSetTol_of_le {pct : BitVec 8} (s : State) (h : pct.toNat ≤ 100) :
    exec (.rxSetTol pct) s = .next (responding { s with tolPct := pctValue pct } .ok 0) :=
  if_pos (decide_eq_true h)

/-- R168, R193 out of range. -/
theorem exec_rxSetTol_of_gt {pct : BitVec 8} (s : State) (h : 100 < pct.toNat) :
    exec (.rxSetTol pct) s = .next (responding s .errRange 0) :=
  if_neg (by rw [pctInRange, decide_eq_true_iff]; omega)

theorem exec_rxAvailable (s : State) : exec .rxAvailable s = .next (responding s .ok (flagData s.rxAvail)) := rfl

theorem exec_rxResetAvailable (s : State) :
    exec .rxResetAvailable s = .next (responding s.clearReceiver .ok 0) := rfl

theorem exec_rxGetValue (s : State) : exec .rxGetValue s = .next (responding s .ok s.rxValue) := rfl

theorem exec_rxGetBitlen (s : State) : exec .rxGetBitlen s = .next (responding s .ok s.rxBitlen) := rfl

theorem exec_rxGetDelay (s : State) : exec .rxGetDelay s = .next (responding s .ok s.rxDelay) := rfl

/-- R174 inside the buffer. -/
theorem exec_rxGetRaw_inside {idx : BitVec 8} {s : State} (h : idx.toNat < s.params.capacity) :
    exec (.rxGetRaw idx) s = .next (responding s .ok (s.buf.read idx.toNat)) := by
  simp only [exec, execRxGetRaw, getRawWith, slotIndex, readSlot_inside h, respond]

/-- R174, R193 outside the buffer. -/
theorem exec_rxGetRaw_outside {idx : BitVec 8} {s : State} (h : s.params.capacity ≤ idx.toNat) :
    exec (.rxGetRaw idx) s = .next (responding s .errRange 0) := by
  simp only [exec, execRxGetRaw, getRawWith, slotIndex, readSlot_outside h, raiseError, respond]

theorem exec_rxGetConfig (s : State) :
    exec .rxGetConfig s = .next (responding s .ok (configData s.params s)) := rfl

/-! ### What an EDGE can do to ReceiverState (R179) -/

/-- An EDGE changes ReceiverState only by the publish of a second boundary (R131). -/
theorem exec_edge_receiver {time : Micros} {s t : State} (h : exec (.edge time) s = .next t) :
    sameReceiver s t ∨ (s.rxEn = true ∧ IsBoundary s time ∧ s.rc = 1 ∧ t.rxAvail = true) := by
  obtain ⟨-, rfl⟩ | ⟨hen, hc, hrc, r, hr, rfl⟩ | ⟨-, -, -, rfl⟩ | ⟨-, -, rfl⟩ | ⟨-, -, rfl⟩ := edgeWith_cases h
  · exact .inl ⟨rfl, rfl, rfl, rfl⟩
  · obtain rfl | ⟨value, -, -, rfl⟩ := decodeFrame_cases hr
    · exact .inl ⟨rfl, rfl, rfl, rfl⟩
    · exact .inr ⟨hen, classifyDuration_boundary.mp hc, BitVec.eq_of_toNat_eq hrc, rfl⟩
  all_goals exact .inl ⟨rfl, rfl, rfl, rfl⟩

/-! ### The statements -/

/-- Settles O41: `exec_edge_receiver` for the pulse port; on the host port the six outcomes of `exec_host_cases`, of which
RX_ENABLE and RX_REARM clear the counters and ReceiverState, RX_RESET_AVAILABLE ReceiverState, and the others neither. -/
theorem hostOnlyClearsCaptureState : Obligations.HostOnlyClearsCaptureState := by
  unfold Obligations.HostOnlyClearsCaptureState
  refine ⟨fun _ _ _ h => exec_edge_receiver h, fun i s t hi h => ?_⟩
  obtain ⟨u, r, he, hu⟩ := exec_host_cases s hi
  obtain rfl : { u with response := some r } = t := Host.Outcome.next.inj (he.symm.trans h)
  have cleared : clearedReceiver s.clearReceiver := ⟨rfl, rfl, rfl, rfl⟩
  obtain ⟨rfl, -⟩ | ⟨-, ⟨pin, hpin, rfl⟩ | ⟨hrearm, -, rfl⟩ | ⟨-, rfl⟩ | ⟨pct, -, -, rfl⟩ | ⟨hclaim, rfl⟩⟩ := hu
  · exact ⟨rfl, rfl, rfl, .inl ⟨rfl, rfl⟩, .inl ⟨rfl, rfl, rfl, rfl⟩⟩
  · exact ⟨rfl, rfl, rfl, .inr ⟨rfl, rfl, .inl ⟨pin, hpin⟩⟩, .inr ⟨cleared, .inl ⟨pin, hpin⟩⟩⟩
  · exact ⟨rfl, rfl, rfl, .inr ⟨rfl, rfl, .inr hrearm⟩, .inr ⟨cleared, .inr (.inl hrearm)⟩⟩
  · exact ⟨rfl, rfl, rfl, .inl ⟨rfl, rfl⟩, .inl ⟨rfl, rfl, rfl, rfl⟩⟩
  · exact ⟨rfl, rfl, rfl, .inl ⟨rfl, rfl⟩, .inl ⟨rfl, rfl, rfl, rfl⟩⟩
  · exact ⟨rfl, rfl, rfl, .inl ⟨rfl, rfl⟩, .inr ⟨cleared, .inr (.inr hclaim)⟩⟩

/-- Settles O32. -/
theorem rxEnableStartsReceive : Obligations.RxEnableStartsReceive := by
  unfold Obligations.RxEnableStartsReceive
  intro pin s
  exact ⟨toNat_wordB 0x10 pin, exec_rxEnable pin s⟩

/-- Settles O33: with a pin the next state is that of RX_ENABLE on it. -/
theorem rxRearmRestartsReceive : Obligations.RxRearmRestartsReceive := by
  unfold Obligations.RxRearmRestartsReceive
  refine ⟨rfl, fun s => ⟨fun hpin => ?_, exec_rxRearm_of_no_pin⟩⟩
  have hrearm := exec_rxRearm_of_pin hpin
  exact ⟨hrearm, _, hrearm.trans (exec_rxEnable s.rxPin s), rfl, rfl, ⟨rfl, rfl, rfl, rfl⟩, rfl, rfl, rfl⟩

/-- Settles O34. -/
theorem rxDisableStopsReceive : Obligations.RxDisableStopsReceive := by
  unfold Obligations.RxDisableStopsReceive
  exact ⟨rfl, exec_rxDisable⟩

/-- Settles O35: a PCT in range is not changed by the narrowing to 7 bits. -/
theorem rxSetTolSetsTheTolerance : Obligations.RxSetTolSetsTheTolerance := by
  unfold Obligations.RxSetTolSetsTheTolerance
  intro pct s
  exact ⟨toNat_wordB 0x13 pct, fun h => ⟨pctValue pct, toNat_pctValue h, exec_rxSetTol_of_le s h⟩,
    exec_rxSetTol_of_gt s⟩

/-- Settles O36. -/
theorem rxResetAvailableClears : Obligations.RxResetAvailableClears := by
  unfold Obligations.RxResetAvailableClears
  exact ⟨rfl, exec_rxResetAvailable⟩

/-- Settles O37: the four rules, with the flag of RX_AVAILABLE as a number. -/
theorem receiverReadsHaveNoSideEffect : Obligations.ReceiverReadsHaveNoSideEffect := by
  unfold Obligations.ReceiverReadsHaveNoSideEffect
  refine ⟨rfl, rfl, rfl, rfl, fun s => ⟨?_, exec_rxGetValue s, exec_rxGetBitlen s, exec_rxGetDelay s⟩⟩
  rw [exec_rxAvailable, flagData_eq_ite]

/-- Settles O38: the two cases of the slot read. -/
theorem rxGetRawReadsOneSlot : Obligations.RxGetRawReadsOneSlot := by
  unfold Obligations.RxGetRawReadsOneSlot
  intro idx s
  exact ⟨toNat_wordB 0x25 idx, exec_rxGetRaw_inside, exec_rxGetRaw_outside⟩

/-- Settles O39: of the legality of the record only the bound on CAPACITY is used. -/
theorem rxGetConfigReadsTheControlRegisters : Obligations.RxGetConfigReadsTheControlRegisters := by
  unfold Obligations.RxGetConfigReadsTheControlRegisters
  refine ⟨rfl, fun s => ⟨configData s.params s, exec_rxGetConfig s, fun hlegal => ?_⟩⟩
  obtain ⟨⟨-, hcap, -⟩, -⟩ := hlegal
  exact toNat_configData s hcap

end Sys2Proof.Machine
end

section
/-! PROOFS. 60_exceptions.md: an operation answers ERR_RANGE exactly when its operand is out of range (R193), an error
answer is the only change of the step that gives it (R190), and the pulse port gives no answer (R207). -/

namespace Sys2Proof.Machine

/-! ### The response of each operation -/

/-- R193: of all operands only PCT and IDX have a range. -/
theorem wellFormed_eq_false_iff {p : Config.Params} {i : Instr} :
    i.wellFormed p = false ↔
      (∃ pct, i = .rxSetTol pct ∧ 100 < pct.toNat) ∨ (∃ idx, i = .rxGetRaw idx ∧ p.capacity ≤ idx.toNat) := by
  constructor
  · intro h
    cases i with
    | rxSetTol pct => exact .inl ⟨pct, rfl, Nat.lt_of_not_le (of_decide_eq_false h)⟩
    | rxGetRaw idx => exact .inr ⟨idx, rfl, Nat.le_of_not_lt (of_decide_eq_false h)⟩
    | _ => cases h
  · rintro (⟨pct, rfl, hpct⟩ | ⟨idx, rfl, hidx⟩)
    · exact decide_eq_false (Nat.not_le_of_lt hpct)
    · exact decide_eq_false (Nat.not_lt_of_le hidx)

/-- R193: what an operand out of range gets. -/
theorem exec_of_not_wellFormed {i : Instr} {s : State} (h : i.wellFormed s.params = false) :
    exec i s = .next (responding s .errRange 0) := by
  obtain ⟨pct, rfl, hpct⟩ | ⟨idx, rfl, hidx⟩ := wellFormed_eq_false_iff.mp h
  · exact exec_rxSetTol_of_gt s hpct
  · exact exec_rxGetRaw_outside hidx

/-- A host operation whose operand is in range is answered OK. -/
theorem exec_host_of_wellFormed {i : Instr} (s : State) (hi : i.port = .host) (h : i.wellFormed s.params = true) :
    ∃ u data, exec i s = .next (responding u .ok data) := by
  cases i with
  | edge time => cases hi
  | rxEnable pin => exact ⟨_, _, exec_rxEnable pin s⟩
  | rxRearm =>
    match hpin : s.rxPinValid with
    | true => exact ⟨_, _, (exec_rxRearm_of_pin hpin).trans (exec_rxEnable s.rxPin s)⟩
    | false => exact ⟨_, _, exec_rxRearm_of_no_pin hpin⟩
  | rxDisable => exact ⟨_, _, exec_rxDisable s⟩
  | rxSetTol pct => exact ⟨_, _, exec_rxSetTol_of_le s (of_decide_eq_true h)⟩
  | rxAvailable => exact ⟨_, _, exec_rxAvailable s⟩
  | rxResetAvailable => exact ⟨_, _, exec_rxResetAvailable s⟩
  | rxGetValue => exact ⟨_, _, exec_rxGetValue s⟩
  | rxGetBitlen => exact ⟨_, _, exec_rxGetBitlen s⟩
  | rxGetDelay => exact ⟨_, _, exec_rxGetDelay s⟩
  | rxGetRaw idx => exact ⟨_, _, exec_rxGetRaw_inside (of_decide_eq_true h)⟩
  | rxGetConfig => exact ⟨_, _, exec_rxGetConfig s⟩
  | cipherDecrypt code => exact ⟨_, _, exec_cipherDecrypt code s⟩
  | cipherEncrypt rid val rcode tid => exact ⟨_, _, exec_cipherEncrypt rid val rcode tid s⟩

/-- R207: dropped or stored, an EDGE leaves no response. -/
theorem exec_pulse_response {i : Instr} {s t : State} (hi : i.port = .pulse) (h : exec i s = .next t) :
    t.response = none := by
  obtain ⟨time, rfl⟩ := pulse_is_edge hi
  obtain ⟨-, rfl⟩ | ⟨-, -, -, r, -, rfl⟩ | ⟨-, -, -, rfl⟩ | ⟨-, -, rfl⟩ | ⟨-, -, rfl⟩ := edgeWith_cases h
  · rfl
  all_goals exact storeDuration_response ..

/-- An operation whose operand is in range gives no error status. -/
theorem exec_response_ok {i : Instr} {s t : State} {r : Response} (hw : i.wellFormed s.params = true)
    (h : exec i s = .next t) (hr : t.response = some r) : r.status = .ok := by
  match hi : i.port with
  | .host =>
    obtain ⟨u, data, he⟩ := exec_host_of_wellFormed s hi hw
    obtain rfl : responding u .ok data = t := Host.Outcome.next.inj (he.symm.trans h)
    obtain rfl : ⟨.ok, data⟩ = r := Option.some.inj hr
    rfl
  | .pulse => cases (exec_pulse_response hi h).symm.trans hr

/-- R190, R193: an operation gives an error status only for an operand out of range. -/
theorem not_wellFormed_of_error {i : Instr} {s t : State} {r : Response} (h : exec i s = .next t)
    (hr : t.response = some r) (herr : r.status ≠ .ok) : i.wellFormed s.params = false :=
  Bool.eq_false_iff.mpr fun hw => herr (exec_response_ok hw h hr)

/-! ### The statements -/

/-- Settles O9: both directions are about `Instr.wellFormed`, which only the two operations can fail. -/
theorem rangeErrorHasTwoCauses : Obligations.RangeErrorHasTwoCauses := by
  unfold Obligations.RangeErrorHasTwoCauses
  refine ⟨rfl, fun i s t h => ?_⟩
  rw [← wellFormed_eq_false_iff]
  constructor
  · rintro ⟨data, hr⟩
    exact not_wellFormed_of_error h hr nofun
  · intro hw
    obtain rfl : responding s .errRange 0 = t :=
      Host.Outcome.next.inj ((exec_of_not_wellFormed hw).symm.trans h)
    exact ⟨0, rfl⟩

/-- Settles O10: an accepted operation gives an error only for an operand out of range; a word that is not accepted gets
`afterIllegal`, which on the pulse port is no response. -/
theorem errorChangesNoState : Obligations.ErrorChangesNoState := by
  unfold Obligations.ErrorChangesNoState
  intro s t port w rest r harr hstep hr herr
  rw [step_operation harr] at hstep
  obtain ⟨i, -, hexec⟩ | ⟨-, hrefuse⟩ := stepWord_cases port w { s with arrivals := rest }
  · have hnext := hexec.symm.trans hstep
    have hrange := exec_of_not_wellFormed (not_wellFormed_of_error hnext hr herr)
    obtain rfl := Host.Outcome.next.inj (hrange.symm.trans hnext)
    obtain rfl := Option.some.inj hr
    exact ⟨rfl, rfl⟩
  · rw [hrefuse, refuseWord_eq_afterIllegal] at hstep
    obtain rfl := Host.Outcome.next.inj hstep
    cases port with
    | host =>
      obtain rfl := Option.some.inj hr
      exact ⟨rfl, rfl⟩
    | pulse => cases hr

/-- Settles O11: an accepted word is an EDGE, and any other is dropped. -/
theorem pulsePortReturnsNothing : Obligations.PulsePortReturnsNothing := by
  unfold Obligations.PulsePortReturnsNothing
  intro s t w rest harr hstep
  have dropped (hno : ∀ i, accept .pulse w ≠ .ok i) : t = { s with arrivals := rest, response := none } :=
    Host.Outcome.next.inj (hstep.symm.trans (step_of_not_accepted harr hno))
  refine ⟨?_, dropped⟩
  obtain ⟨i, hi, hexec⟩ | ⟨hno, -⟩ := stepWord_cases .pulse w { s with arrivals := rest }
  · obtain ⟨-, hport⟩ := accept_ok.mp hi
    exact exec_pulse_response hport (hexec.symm.trans ((step_operation harr).symm.trans hstep))
  · rw [dropped hno]

end Sys2Proof.Machine
end

section
/-! PROOFS. 30_encoding.md: the encoder and the decoder are each other's inverse (R63 to R70, R74, R77), and the match
and mask table under R70 selects the words the decoder reads. -/

namespace Sys2Proof

/-! ### Decoding an encoded operation -/

theorem opcodeField_encode (i : Instr) : opcodeField (encode i) = i.opcode.code := by
  cases i with
  | edge time => exact Laws.EncodedOpcode.edge time
  | rxEnable pin => exact Laws.EncodedOpcode.rxEnable pin
  | rxSetTol pct => exact Laws.EncodedOpcode.rxSetTol pct
  | rxGetRaw idx => exact Laws.EncodedOpcode.rxGetRaw idx
  | cipherDecrypt code => exact Laws.EncodedOpcode.cipherDecrypt code
  | cipherEncrypt rid val rcode tid => exact Laws.EncodedOpcode.cipherEncrypt rid val rcode tid
  | _ => exact opcodeField_wordN _

theorem encode_reserved (i : Instr) : encode i &&& i.opcode.format.reserved = 0 := by
  cases i with
  | edge time => exact wordT_reserved _ time
  | rxEnable pin => exact wordB_reserved _ pin
  | rxSetTol pct => exact wordB_reserved _ pct
  | rxGetRaw idx => exact wordB_reserved _ idx
  | cipherDecrypt code => exact wordC_reserved _ code
  | cipherEncrypt rid val rcode tid => exact wordE_reserved _ tid rcode val rid
  | _ => exact wordN_reserved _

/-- Each field of an encoded operation holds the operand it was made from. -/
theorem readOperands_encode (i : Instr) : readOperands i.opcode (encode i) = i := by
  cases i with
  | edge time => exact congrArg Instr.edge (extract_wordT _ time)
  | rxEnable pin => exact congrArg Instr.rxEnable (extract_wordB _ pin)
  | rxSetTol pct => exact congrArg Instr.rxSetTol (extract_wordB _ pct)
  | rxGetRaw idx => exact congrArg Instr.rxGetRaw (extract_wordB _ idx)
  | cipherDecrypt code => exact congrArg Instr.cipherDecrypt (extract_wordC _ code)
  | cipherEncrypt rid val rcode tid => simp [Instr.opcode, readOperands, encode]
  | _ => rfl

theorem decode_encode (i : Instr) : decode (encode i) = .ok i :=
  decode_ok.mpr ⟨opcodeField_encode i, encode_reserved i, (readOperands_encode i).symm⟩

theorem accept_encode (i : Instr) : accept i.port (encode i) = .ok i :=
  accept_ok.mpr ⟨decode_encode i, rfl⟩

/-- Settles O1, field by field and bit by bit in the lemmas above. -/
theorem decodeOfEncode : Obligations.DecodeOfEncode := by
  unfold Obligations.DecodeOfEncode
  exact fun i => ⟨decode_encode i, accept_encode i⟩

/-! ### Encoding a decoded word -/

/-- A word with the opcode of its operation and no reserved bit is made of the opcode and the operands read from it. -/
theorem encode_readOperands {o : Opcode} {w : Word} (hcode : opcodeField w = o.code)
    (hreserved : w &&& o.format.reserved = 0) : encode (readOperands o w) = w := by
  cases o with
  | edge => exact (congrArg (wordT · _) hcode.symm).trans (wordT_of_reserved hreserved)
  | rxEnable | rxSetTol | rxGetRaw => exact (congrArg (wordB · _) hcode.symm).trans (wordB_of_reserved hreserved)
  | cipherDecrypt => exact (congrArg (wordC · _) hcode.symm).trans (wordC_of_reserved hreserved)
  | cipherEncrypt => exact (congrArg (wordE · _ _ _ _) hcode.symm).trans (wordE_of_reserved hreserved)
  | _ => exact (congrArg wordN hcode.symm).trans (wordN_of_reserved hreserved)

theorem encode_of_decode {w : Word} {i : Instr} (h : decode w = .ok i) : encode i = w := by
  obtain ⟨hcode, hreserved, hi⟩ := decode_ok.mp h
  rw [hi]
  exact encode_readOperands hcode hreserved

/-- Settles O2. -/
theorem encodeOfDecode : Obligations.EncodeOfDecode := by
  unfold Obligations.EncodeOfDecode
  exact fun _ _ h => encode_of_decode h

/-! ### The match and mask table -/

/-- The bits of the opcode (R61). -/
def opcodeMask : Word := 0xFF00000000000000

theorem opcodeField_and (v w : Word) : opcodeField (v &&& w) = opcodeField v &&& opcodeField w :=
  BitVec.extractLsb'_and

theorem and_opcodeMask (w : Word) : w &&& opcodeMask = wordN (opcodeField w) := by
  have hreserved : (w &&& opcodeMask) &&& Format.reserved .n = 0 := by
    have apart : opcodeMask &&& Format.reserved .n = 0#64 := rfl
    rw [BitVec.and_assoc, apart, BitVec.and_zero, BitVec.ofNat_eq_ofNat]
  have hcode : opcodeField (w &&& opcodeMask) = opcodeField w := by
    rw [opcodeField_and, show opcodeField opcodeMask = BitVec.allOnes 8 from rfl, BitVec.and_allOnes]
  rw [← wordN_of_reserved hreserved, hcode]

/-- A row's match and mask as they follow from its opcode: the mask is the opcode and the reserved bits, the match the
opcode with every other bit 0. -/
theorem opcodeTable_row : ∀ r ∈ opcodeTable,
    r.mask = opcodeMask ||| r.opcode.format.reserved ∧ r.pattern = wordN r.opcode.code := by decide

theorem exists_row (o : Opcode) : ∃ r ∈ opcodeTable, r.opcode = o := by
  cases o <;> decide

/-- What the reserved bits of a word are, as far as its opcode and reserved bits are masked. -/
theorem and_mask_and_reserved (f : Format) (w : Word) :
    (w &&& (opcodeMask ||| f.reserved)) &&& f.reserved = w &&& f.reserved := by
  have inside : (opcodeMask ||| f.reserved) &&& f.reserved = f.reserved := by cases f <;> rfl
  rw [BitVec.and_assoc, inside]

theorem wordN_and_reserved (o : BitVec 8) (f : Format) : wordN o &&& f.reserved = 0 := by
  have inside : f.reserved = Format.reserved .n &&& f.reserved := by cases f <;> rfl
  rw [inside, ← BitVec.and_assoc, wordN_reserved, BitVec.ofNat_eq_ofNat, BitVec.zero_and]

/-- A row selects the words with its opcode and no reserved bit. -/
theorem row_selects_iff {r : TableRow} (hr : r ∈ opcodeTable) (w : Word) :
    w &&& r.mask = r.pattern ↔ opcodeField w = r.opcode.code ∧ w &&& r.opcode.format.reserved = 0 := by
  obtain ⟨hmask, hpattern⟩ := opcodeTable_row r hr
  rw [hmask, hpattern]
  constructor
  · intro h
    constructor
    · have hfield := congrArg opcodeField h
      rwa [opcodeField_and, opcodeField_wordN,
        show opcodeField (opcodeMask ||| r.opcode.format.reserved) = BitVec.allOnes 8 by
          cases r.opcode.format <;> rfl, BitVec.and_allOnes] at hfield
    · rw [← and_mask_and_reserved, h, wordN_and_reserved]
  · rintro ⟨hcode, hreserved⟩
    rw [BitVec.and_or_distrib_left, hreserved, BitVec.ofNat_eq_ofNat, BitVec.or_zero, and_opcodeMask, hcode]

/-- Settles O3: a row selects a word for the same two reasons the decoder has. -/
theorem operationsAreTheTableRows : Obligations.OperationsAreTheTableRows := by
  unfold Obligations.OperationsAreTheTableRows
  refine fun w => ⟨fun i h => ?_, fun r hr h => ?_⟩
  · obtain ⟨hcode, hreserved, -⟩ := decode_ok.mp h
    obtain ⟨r, hr, hop⟩ := exists_row i.opcode
    exact ⟨r, hr, (row_selects_iff hr w).mpr (hop ▸ ⟨hcode, hreserved⟩), hop⟩
  · obtain ⟨hcode, hreserved⟩ := (row_selects_iff hr w).mp h
    have hop : (readOperands r.opcode w).opcode = r.opcode := readOperands_opcode r.opcode w
    refine ⟨readOperands r.opcode w, decode_ok.mpr ?_, hop⟩
    rw [hop]
    exact ⟨hcode, hreserved, rfl⟩

/-- Settles O4: each word is the encoding of its operation. -/
theorem vectorWordsDecode : Obligations.VectorWordsDecode := by
  unfold Obligations.VectorWordsDecode
  exact ⟨decode_encode (.edge 0x2194), decode_encode (.rxEnable 2), decode_encode (.rxSetTol 60),
    decode_encode (.rxGetRaw 57), decode_encode .rxGetConfig, decode_encode (.cipherDecrypt 0x24B4D96),
    decode_encode (.cipherEncrypt 1 1 0 0x1234)⟩

end Sys2Proof
end

section
/-! PROOFS. What a step makes of a delivered word (R62, R71 to R75): an accepted word runs as its operation, a host word
gets one response, ERR_ILLEGAL has three causes (R192), and only the first arrival is taken (R49). -/

namespace Sys2Proof.Machine

open Sys2Proof.Config

/-! ### Accepted words -/

section
variable {s : State} {port : Port} {w : Word} {rest : List Arrival} {i : Instr}

theorem step_of_accepted (harr : s.arrivals = .operation port w :: rest) (hi : accept port w = .ok i) :
    step s = exec i { s with arrivals := rest } := by
  rw [step_operation harr, stepWord, hi]

/-- A delivered word runs as the operation its port accepts, or nothing but the refusal happens. -/
theorem step_operation_cases (harr : s.arrivals = .operation port w :: rest) :
    (∃ i, accept port w = .ok i ∧ step s = exec i { s with arrivals := rest }) ∨
    ((∀ i, accept port w ≠ .ok i) ∧ step s = .next (afterIllegal port rest s)) := by
  obtain ⟨i, hi, -⟩ | ⟨hno, -⟩ := stepWord_cases port w { s with arrivals := rest }
  · exact .inl ⟨i, hi, step_of_accepted harr hi⟩
  · exact .inr ⟨hno, step_of_not_accepted harr hno⟩

end

/-- Settles O5. -/
theorem stepRunsTheAcceptedOperation : Obligations.StepRunsTheAcceptedOperation := by
  unfold Obligations.StepRunsTheAcceptedOperation
  exact fun _ _ _ _ _ harr hi => step_of_accepted harr hi

theorem tableWord_toNat (w : Word) : tableWord 64 w.toNat = w := by
  rw [tableWord, Nat.mod_eq_of_lt w.isLt, BitVec.ofNat_toNat, BitVec.setWidth_eq]

/-- A word that decodes is delivered on the port of its operation. -/
theorem deliveryPort_of_decode {w : Word} {i : Instr} (h : decode w = .ok i) : deliveryPort w = i.port := by
  obtain ⟨hcode, -, -⟩ := decode_ok.mp h
  simp only [deliveryPort, hcode, opcodeOf_code, Instr.port]

/-- Settles O6: the word arrives first, on a port that accepts it. -/
theorem deliveredWordRunsNext : Obligations.DeliveredWordRunsNext := by
  unfold Obligations.DeliveredWordRunsNext
  intro i s
  have harr : (s.withFetchWord 64 (encode i).toNat).arrivals = .operation i.port (encode i) :: s.arrivals := by
    rw [State.withFetchWord_arrivals, tableWord_toNat, deliveryPort_of_decode (decode_encode i)]
  exact step_of_accepted harr (accept_encode i)

/-! ### The host port -/

/-- R66, R194: a host operation completes with one response, which is OK, or ERR_RANGE with DATA 0. -/
theorem exec_host_response {i : Instr} (s : State) (hi : i.port = .host) :
    ∃ (t : State) (r : Response), exec i s = .next t ∧ t.response = some r ∧
      (r.status = .ok ∨ (r.status = .errRange ∧ r.data = 0)) := by
  obtain ⟨u, r, he, ⟨-, hr⟩ | ⟨rfl, -⟩⟩ := exec_host_cases s hi
  · exact ⟨_, r, he, rfl, hr⟩
  · exact ⟨_, _, he, rfl, .inl rfl⟩

theorem exec_host_not_illegal {i : Instr} {s t : State} (hi : i.port = .host) (h : exec i s = .next t)
    (data : BitVec 32) : t.response ≠ some ⟨.errIllegal, data⟩ := by
  intro hill
  obtain ⟨t', r, he, hr, hstatus⟩ := exec_host_response s hi
  obtain rfl : t' = t := Host.Outcome.next.inj (he.symm.trans h)
  obtain rfl : ⟨.errIllegal, data⟩ = r := Option.some.inj (hill.symm.trans hr)
  obtain hok | ⟨hrange, -⟩ := hstatus
  · cases hok
  · cases hrange

/-- Settles O12: an accepted word has the response of its operation, any other ERR_ILLEGAL with DATA 0. -/
theorem hostPortReturnsOneResponse : Obligations.HostPortReturnsOneResponse := by
  unfold Obligations.HostPortReturnsOneResponse
  intro s w rest harr
  obtain ⟨i, hi, hstep⟩ | ⟨-, hstep⟩ := step_operation_cases harr
  · obtain ⟨-, hport⟩ := accept_ok.mp hi
    obtain ⟨t, r, he, hr, hok | ⟨hrange, hdata⟩⟩ := exec_host_response { s with arrivals := rest } hport
    · refine ⟨t, r, hstep.trans he, hr, ?_, ?_⟩
      · simp [hok, Status.code]
      · simp [hok, Status.code]
    · exact ⟨t, r, hstep.trans he, hr, by simp [hrange, Status.code], fun _ => hdata⟩
  · exact ⟨_, ⟨.errIllegal, 0⟩, hstep, rfl, by decide, fun _ => rfl⟩

/-- R71: an OPC that is in no row of R70 is in R71's list. -/
theorem unassignedOpc_of_opcodeOf {b : BitVec 8} (h : opcodeOf b = none) : UnassignedOpc b := by
  unfold opcodeOf at h
  split at h
  case h_15 =>
    simp only [imp_false] at *
    unfold UnassignedOpc
    bv_omega
  all_goals cases h

/-- R75: a word that gives none of the three causes is accepted on the host port. -/
theorem accept_host_of_no_cause {w : Word} (hassigned : ¬ UnassignedOpc (opcodeField w))
    (hedge : opcodeField w ≠ 0x01) (hreserved : ¬ ReservedBitSet w) : ∃ i, accept .host w = .ok i := by
  match ho : opcodeOf (opcodeField w) with
  | none => exact absurd (unassignedOpc_of_opcodeOf ho) hassigned
  | some o =>
    have hcode : opcodeField w = o.code := code_of_opcodeOf ho
    have hzero : w &&& o.format.reserved = 0 := by
      rw [Format.reserved_zero_iff_toNat, ← operandBits_code, ← hcode]
      exact not_not.mp hreserved
    have hport : o.port = .host := by
      match hp : o.port with
      | .host => rfl
      | .pulse => exact absurd (hcode.trans (o.port_eq_pulse_iff.mp hp)) hedge
    refine ⟨readOperands o w, accept_ok.mpr ⟨decode_ok.mpr ?_, ?_⟩⟩
    · rw [readOperands_opcode]
      exact ⟨hcode, hzero, rfl⟩
    · rw [Instr.port, readOperands_opcode, hport]

/-- R192: the host port accepts a word unless one of the three causes holds. -/
theorem accept_host_fails_iff {w : Word} :
    (∀ i, accept .host w ≠ .ok i) ↔
      UnassignedOpc (opcodeField w) ∨ opcodeField w = 0x01 ∨ ReservedBitSet w := by
  constructor
  · intro hno
    by_contra hcause
    obtain ⟨hassigned, hedge, hreserved⟩ := not_or.mp hcause |>.imp_right not_or.mp
    obtain ⟨i, hi⟩ := accept_host_of_no_cause hassigned hedge hreserved
    exact hno i hi
  · rintro (h | h | h)
    · exact accept_ne_ok_of_unassigned h
    · exact accept_host_ne_ok_of_edge h
    · exact accept_ne_ok_of_reservedBitSet h

/-- Settles O8: ERR_ILLEGAL is the answer to exactly the words the host port does not accept. -/
theorem illegalHasThreeCauses : Obligations.IllegalHasThreeCauses := by
  unfold Obligations.IllegalHasThreeCauses
  intro s t w rest harr hstep
  rw [← accept_host_fails_iff]
  constructor
  · rintro ⟨data, hill⟩ i hi
    obtain ⟨-, hport⟩ := accept_ok.mp hi
    exact exec_host_not_illegal hport ((step_of_accepted harr hi).symm.trans hstep) data hill
  · intro hno
    obtain rfl := Host.Outcome.next.inj ((step_of_not_accepted harr hno).symm.trans hstep)
    exact ⟨0, rfl⟩

/-! ### The arrivals -/

/-- No operation takes or adds an arrival. -/
theorem exec_arrivals {i : Instr} {s t : State} (h : exec i s = .next t) : t.arrivals = s.arrivals := by
  match hi : i.port with
  | .host =>
    obtain ⟨u, r, he, hu⟩ := exec_host_cases s hi
    obtain rfl : { u with response := some r } = t := Host.Outcome.next.inj (he.symm.trans h)
    obtain ⟨rfl, -⟩ | ⟨-, ⟨pin, -, rfl⟩ | ⟨-, -, rfl⟩ | ⟨-, rfl⟩ | ⟨pct, -, -, rfl⟩ | ⟨-, rfl⟩⟩ := hu
    all_goals rfl
  | .pulse =>
    obtain ⟨time, rfl⟩ := pulse_is_edge hi
    obtain ⟨-, rfl⟩ | ⟨-, -, -, r, hr, rfl⟩ | ⟨-, -, -, rfl⟩ | ⟨-, -, rfl⟩ | ⟨-, -, rfl⟩ := edgeWith_cases h
    · rfl
    · exact (decodeFrame_keeps hr).arrivals
    all_goals rfl

theorem step_arrivals {s t : State} {port : Port} {w : Word} {rest : List Arrival}
    (harr : s.arrivals = .operation port w :: rest) (hstep : step s = .next t) : t.arrivals = rest := by
  obtain ⟨i, -, hexec⟩ | ⟨-, hrefuse⟩ := step_operation_cases harr
  · exact exec_arrivals (hexec.symm.trans hstep)
  · obtain rfl := Host.Outcome.next.inj (hrefuse.symm.trans hstep)
    rfl

/-- Settles O13. -/
theorem arrivalsAreTakenInOrder : Obligations.ArrivalsAreTakenInOrder := by
  unfold Obligations.ArrivalsAreTakenInOrder
  intro s t port w rest harr hstep
  have hrest := step_arrivals harr hstep
  refine ⟨hrest, ?_, fun other hother => ?_⟩
  · rw [hrest, harr, portWords, if_pos rfl]
  · rw [hrest, harr, portWords, if_neg hother.symm]

end Sys2Proof.Machine
end

section
/-! PROOFS. 10_state.md sections 6 and 7: the state after reset meets the invariant, every operation and every step
keeps it, no step stops in a state that meets it, and no step writes the parameters. -/

namespace Sys2Proof.Machine

open Sys2Proof.Config

/-! ### Reset -/

theorem step_reset {s : State} {rest : List Arrival} (harr : s.arrivals = .reset :: rest) :
    step s = .next { State.resetWith s.params with arrivals := rest } := by
  rw [step, harr]
  rfl

/-- Settles O15. -/
theorem resetSetsEveryElement : Obligations.ResetSetsEveryElement := by
  unfold Obligations.ResetSetsEveryElement
  refine ⟨fun p => ?_, rfl, rfl, fun s rest => step_reset⟩
  exact ⟨rfl, rfl, rfl, rfl, rfl, fun _ => rfl, rfl, rfl, rfl, rfl, rfl, rfl, rfl⟩

theorem consistent_resetWith {p : Params} (hp : p.legal) : Consistent (State.resetWith p) where
  paramsLegal := hp
  bufCanonical := rfl
  ccInRange := Nat.zero_le _
  rcAtRest := Nat.zero_le _
  tolInRange := by
    obtain ⟨⟨-, -, -, -, htol⟩, -⟩ := hp
    exact htol
  enabledHasPin := nofun
  clearedWhenUnavailable _ := ⟨rfl, rfl, rfl⟩
  lengthWhenAvailable := nofun

theorem defaultParams_legal : defaultParams.legal := by decide

/-- Settles O16. -/
theorem resetMeetsTheInvariant : Obligations.ResetMeetsTheInvariant := by
  unfold Obligations.ResetMeetsTheInvariant
  exact ⟨fun _ => consistent_resetWith, consistent_resetWith defaultParams_legal⟩

/-! ### Every update keeps the invariant -/

section
variable {s : State}

theorem Consistent.capacity_pos (h : Consistent s) : 0 < s.params.capacity := by
  obtain ⟨⟨hcap, -⟩, -⟩ := h.paramsLegal
  omega

/-- The invariant is about the block alone, not about what arrives or what was answered. -/
theorem Consistent.with_ports (h : Consistent s) (arrivals : List Arrival) (response : Option Response) :
    Consistent { s with arrivals := arrivals, response := response } :=
  { h with }

theorem Consistent.clearReceiver (h : Consistent s) : Consistent s.clearReceiver :=
  { h with
    clearedWhenUnavailable := fun _ => ⟨rfl, rfl, rfl⟩
    lengthWhenAvailable := nofun }

/-- R165. -/
theorem Consistent.enableReceive (h : Consistent s) (pin : BitVec 8) : Consistent (s.enableReceive pin) :=
  { h.clearReceiver with
    ccInRange := Nat.zero_le _
    rcAtRest := Nat.zero_le _
    enabledHasPin := fun _ => rfl }

theorem Consistent.disableReceive (h : Consistent s) : Consistent { s with rxEn := false } :=
  { h with enabledHasPin := nofun }

/-- R168: only a PCT in range is stored. -/
theorem Consistent.setTolerance (h : Consistent s) {pct : BitVec 8} (hpct : pctInRange pct = true) :
    Consistent { s with tolPct := pctValue pct } :=
  { h with
    tolInRange := by
      have hle : pct.toNat ≤ 100 := of_decide_eq_true hpct
      exact (toNat_pctValue hle).trans_le hle }

/-- R131: the length published is that of a frame inside the buffer with more than MIN_CHANGES transitions. -/
theorem Consistent.publish (h : Consistent s) (code : BitVec 32) {n : Nat} (delay : Nat) (hshort : minChanges < n)
    (hlong : n ≤ s.params.capacity - 1) : Consistent (s.publish code (n / 2) delay) :=
  { h with
    clearedWhenUnavailable := nofun
    lengthWhenAvailable := fun _ => by
      obtain ⟨⟨-, hcap, -⟩, -⟩ := h.paramsLegal
      have hlen : (BitVec.ofNat 32 (n / 2)).toNat = n / 2 := Nat.mod_eq_of_lt (by omega)
      rw [State.publish_rxBitlen, State.publish_params, hlen]
      unfold minChanges at hshort
      omega }

/-- R36: the frame a boundary closes lies inside the buffer. -/
theorem Consistent.frameLength_le (h : Consistent s) : frameLength s ≤ s.params.capacity - 1 :=
  Nat.sub_le_sub_right h.ccInRange 1

theorem Consistent.decodeFrame (h : Consistent s) {r : State}
    (hr : decodeFrame s.params (frameLength s) s = .next r) : Consistent r := by
  obtain rfl | ⟨value, -, hn, rfl⟩ := decodeFrame_cases hr
  · exact h
  · exact h.publish value _ hn h.frameLength_le

theorem guardedRepeat_le (p : Params) (cc rc : Nat) : guardedRepeat p cc rc ≤ rc := by
  unfold guardedRepeat
  split
  · exact Nat.zero_le rc
  · exact Nat.le_refl rc

/-- R36 to R38, R108, R109: the store writes inside the buffer, and the counters it leaves are in range. -/
theorem Consistent.storeDuration (h : Consistent s) {rc : Nat} (hrc : rc ≤ 1) (cc : Nat) (d time : Micros) :
    Consistent (storeDuration s.params cc rc d time s) :=
  have hslot : guardedIndex s.params cc < s.params.capacity := guardedIndex_lt h.capacity_pos cc
  { h with
    bufCanonical := Memory.wf_write hslot h.bufCanonical
    ccInRange := (toNat_ofNat_succ_slot h.paramsLegal.1 hslot).trans_le hslot
    rcAtRest := (Nat.mod_le ..).trans ((guardedRepeat_le ..).trans hrc) }

end

/-! ### Every operation and every step -/

theorem Consistent.exec_host {s t : State} {i : Instr} (h : Consistent s) (hi : i.port = .host)
    (he : exec i s = .next t) : Consistent t := by
  obtain ⟨u, r, he', hu⟩ := exec_host_cases s hi
  obtain rfl : { u with response := some r } = t := Host.Outcome.next.inj (he'.symm.trans he)
  refine Consistent.with_ports ?_ _ _
  obtain ⟨rfl, -⟩ | ⟨-, ⟨pin, -, rfl⟩ | ⟨-, -, rfl⟩ | ⟨-, rfl⟩ | ⟨pct, -, hpct, rfl⟩ | ⟨-, rfl⟩⟩ := hu
  · exact h
  · exact h.enableReceive pin
  · exact h.enableReceive s.rxPin
  · exact h.disableReceive
  · exact h.setTolerance hpct
  · exact h.clearReceiver

theorem Consistent.exec_edge {s t : State} {time : Micros} (h : Consistent s) (he : exec (.edge time) s = .next t) :
    Consistent t := by
  obtain ⟨-, rfl⟩ | ⟨-, -, -, r, hr, rfl⟩ | ⟨-, -, hrc, rfl⟩ | ⟨-, -, rfl⟩ | ⟨-, -, rfl⟩ := edgeWith_cases he
  · exact h.with_ports s.arrivals none
  · rw [← decodeFrame_params hr]
    exact (h.decodeFrame hr).storeDuration (Nat.zero_le 1) ..
  · have hzero : s.rc.toNat + 1 ≤ 1 := by have := h.rcAtRest; omega
    exact h.storeDuration hzero ..
  · exact h.storeDuration h.rcAtRest ..
  · exact h.storeDuration h.rcAtRest ..

theorem Consistent.exec {s t : State} {i : Instr} (h : Consistent s) (he : exec i s = .next t) : Consistent t := by
  match hi : i.port with
  | .host => exact h.exec_host hi he
  | .pulse =>
    obtain ⟨time, rfl⟩ := pulse_is_edge hi
    exact h.exec_edge he

/-- What a step that completes did: nothing, reset, an operation, or the refusal of a word. -/
theorem step_next {s t : State} (hstep : step s = .next t) :
    t = s ∨ (∃ rest, t = { State.resetWith s.params with arrivals := rest }) ∨
    (∃ i rest, exec i { s with arrivals := rest } = .next t) ∨ ∃ port rest, t = afterIllegal port rest s := by
  obtain ⟨-, hidle⟩ | ⟨rest, -, hreset⟩ | ⟨port, w, rest, harr, -⟩ := step_cases s
  · exact .inl (Host.Outcome.next.inj (hstep.symm.trans hidle))
  · exact .inr (.inl ⟨rest, Host.Outcome.next.inj (hstep.symm.trans hreset)⟩)
  · obtain ⟨i, -, hexec⟩ | ⟨-, hrefuse⟩ := step_operation_cases harr
    · exact .inr (.inr (.inl ⟨i, rest, hexec.symm.trans hstep⟩))
    · exact .inr (.inr (.inr ⟨port, rest, Host.Outcome.next.inj (hstep.symm.trans hrefuse)⟩))

theorem Consistent.step {s t : State} (h : Consistent s) (hstep : step s = .next t) : Consistent t := by
  obtain rfl | ⟨rest, rfl⟩ | ⟨i, rest, hexec⟩ | ⟨port, rest, rfl⟩ := step_next hstep
  · exact h
  · exact (consistent_resetWith h.paramsLegal).with_ports rest none
  · exact (h.with_ports rest s.response).exec hexec
  · exact h.with_ports ..

/-- Settles O18. -/
theorem stepKeepsTheInvariant : Obligations.StepKeepsTheInvariant := by
  unfold Obligations.StepKeepsTheInvariant
  exact fun _ _ h hstep => h.step hstep

/-- An operation completes in every state that meets the invariant; only EDGE needs it. -/
theorem Consistent.exec_completes {s : State} (h : Consistent s) (i : Instr) : ∃ t, Machine.exec i s = .next t := by
  match hi : i.port with
  | .host =>
    obtain ⟨t, -, he, -⟩ := exec_host_response s hi
    exact ⟨t, he⟩
  | .pulse =>
    obtain ⟨time, rfl⟩ := pulse_is_edge hi
    exact edgeWith_completes h.capacity_pos h.ccInRange

/-- Settles O19. -/
theorem stepNeverStops : Obligations.StepNeverStops := by
  unfold Obligations.StepNeverStops
  intro s h
  obtain ⟨-, hidle⟩ | ⟨rest, -, hreset⟩ | ⟨port, w, rest, harr, -⟩ := step_cases s
  · exact ⟨_, hidle⟩
  · exact ⟨_, hreset⟩
  · obtain ⟨i, -, hexec⟩ | ⟨-, hrefuse⟩ := step_operation_cases harr
    · obtain ⟨t, ht⟩ := (h.with_ports rest s.response).exec_completes i
      exact ⟨t, hexec.trans ht⟩
    · exact ⟨_, hrefuse⟩

/-! ### The parameters -/

/-- Settles O17. -/
theorem parametersAreFixed : Obligations.ParametersAreFixed := by
  unfold Obligations.ParametersAreFixed
  intro s t hstep
  obtain rfl | ⟨rest, rfl⟩ | ⟨i, rest, hexec⟩ | ⟨port, rest, rfl⟩ := step_next hstep
  · rfl
  · rfl
  · exact exec_params (s := { s with arrivals := rest }) hexec
  · rfl

/-- Settles O48. -/
theorem defaultParametersAreLegal : Obligations.DefaultParametersAreLegal := by
  unfold Obligations.DefaultParametersAreLegal
  exact ⟨rfl, rfl, rfl, rfl, rfl, rfl, rfl, defaultParams_legal⟩

end Sys2Proof.Machine
end

section
/-! PROOFS. 40_capture_assembly.md section 1 and 41_bit_decoder.md section 5: one rule for each way an EDGE is handled,
what it publishes, and what has no part in it: the pin, and every pulse word while receive is disabled. -/

namespace Sys2Proof.Machine

open Sys2Proof.Config

/-! ### One rule for each class of duration -/

/-- R103, R108. -/
theorem edgeWith_ordinary {p : Params} {time : Micros} {s : State} (hen : s.rxEn = true)
    (hc : classifyDuration p (duration s time) = .ordinary) :
    edgeWith p time s = .next (storeDuration p s.cc.toNat s.rc.toNat (duration s time) time s) := by
  rw [edgeWith, if_pos hen, hc]

/-- R104: a boundary that is not the second one is counted. -/
theorem edgeWith_firstBoundary {p : Params} {time : Micros} {s : State} (hen : s.rxEn = true)
    (hb : classifyDuration p (duration s time) = .boundary) (hrc : s.rc.toNat ≠ 1) :
    edgeWith p time s = .next (storeDuration p 0 (s.rc.toNat + 1) (duration s time) time s) := by
  have hcount : s.rc.toNat + 1 ≠ 2 := by omega
  rw [edgeWith, if_pos hen, hb]
  exact if_neg hcount

theorem exec_edge_ordinary {time : Micros} {s : State} (hen : s.rxEn = true) (hb : ¬ IsBoundary s time)
    (hgap : (duration s time).toNat ≤ s.params.gapHi) :
    exec (.edge time) s = .next (afterStore s s (guardedIndex s.params s.cc.toNat)
      (guardedRepeat s.params s.cc.toNat s.rc.toNat) time) := by
  rw [exec_edge, edgeWith_ordinary hen (classifyDuration_ordinary.mpr ⟨hb, hgap⟩), storeDuration_eq_afterStore]

theorem exec_edge_firstBoundary {time : Micros} {s : State} (hcap : 0 < s.params.capacity) (hen : s.rxEn = true)
    (hb : IsBoundary s time) (hrc : s.rc = 0) : exec (.edge time) s = .next (afterStore s s 0 1 time) := by
  have hzero : s.rc.toNat = 0 := congrArg BitVec.toNat hrc
  obtain ⟨hindex, hrepeat⟩ := guarded_inside hcap (s.rc.toNat + 1)
  rw [exec_edge, edgeWith_firstBoundary hen (classifyDuration_boundary.mpr hb) (by omega),
    storeDuration_eq_afterStore, hindex, hrepeat, hzero]

/-- At a full buffer both counters restart (R108). -/
theorem guarded_full {p : Params} {cc : Nat} (h : p.capacity ≤ cc) (rc : Nat) :
    guardedIndex p cc = 0 ∧ guardedRepeat p cc rc = 0 :=
  ⟨if_pos h, if_pos h⟩

/-- Settles O21: the overflow guard on either side of CAPACITY. -/
theorem ordinaryEdgeStoresAtChangeCount : Obligations.OrdinaryEdgeStoresAtChangeCount := by
  unfold Obligations.OrdinaryEdgeStoresAtChangeCount
  intro s time hen hb hgap
  rw [exec_edge_ordinary hen hb hgap]
  constructor
  · intro hspace
    obtain ⟨hindex, hrepeat⟩ := guarded_inside hspace s.rc.toNat
    rw [hindex, hrepeat]
  · intro hfull
    obtain ⟨hindex, hrepeat⟩ := guarded_full hfull s.rc.toNat
    rw [hindex, hrepeat]

/-- Settles O23. -/
theorem firstBoundaryDecodesNothing : Obligations.FirstBoundaryDecodesNothing := by
  unfold Obligations.FirstBoundaryDecodesNothing
  intro s time hp hen hb hrc
  obtain ⟨⟨hcap, -⟩, -⟩ := hp
  exact exec_edge_firstBoundary (by omega) hen hb hrc

/-! ### Empty windows -/

/-- R123 with a tolerance of 0. -/
theorem not_inOpenWindow_zero (c : Nat) (x : Micros) : ¬ InOpenWindow c 0 x := by
  unfold InOpenWindow
  omega

theorem not_pairIs_zero (delay : Nat) (bit : Bool) (a b : Micros) : ¬ PairIs delay 0 bit a b := by
  cases bit
  · exact fun ⟨ha, _⟩ => not_inOpenWindow_zero _ _ ha
  · exact fun ⟨ha, _⟩ => not_inOpenWindow_zero _ _ ha

/-- A frame that publishes has a first pair, which lies in the windows of a bit. -/
theorem decodeFrame_zero_tolerance {p : Params} {n : Nat} {s r : State} (htol : specTol s = 0)
    (h : decodeFrame p n s = .next r) : r = s := by
  obtain rfl | ⟨value, hread, hn, -⟩ := decodeFrame_cases h
  · rfl
  · unfold minChanges at hn
    obtain ⟨bit, hbit⟩ := framePairIs_of_readFrame (k := 0) hread (by omega)
    rw [FramePairIs, htol] at hbit
    exact absurd hbit (not_pairIs_zero _ bit _ _)

/-- Settles O28: only a decode writes ReceiverState, and it finds every window empty. -/
theorem zeroTolerancePublishesNothing : Obligations.ZeroTolerancePublishesNothing := by
  unfold Obligations.ZeroTolerancePublishesNothing
  intro s t time htol h
  obtain ⟨-, rfl⟩ | ⟨-, -, -, r, hr, rfl⟩ | ⟨-, -, -, rfl⟩ | ⟨-, -, rfl⟩ | ⟨-, -, rfl⟩ := edgeWith_cases h
  · exact ⟨rfl, rfl, rfl, rfl⟩
  · obtain rfl := decodeFrame_zero_tolerance htol hr
    exact ⟨rfl, rfl, rfl, rfl⟩
  all_goals exact ⟨rfl, rfl, rfl, rfl⟩

/-! ### The pin -/

section
variable (pin : BitVec 8)

theorem decodeFrame_withPin {p : Params} {n : Nat} {s r : State} (h : decodeFrame p n s = .next r) :
    decodeFrame p n { s with rxPin := pin } = .next { r with rxPin := pin } := by
  have hread : readFrame p { s with rxPin := pin } n = readFrame p s n := rfl
  unfold decodeFrame at h ⊢
  rw [hread]
  match hr : readFrame p s n with
  | .code value =>
    rw [hr] at h
    obtain rfl := Host.Outcome.next.inj h
    by_cases hn : minChanges < n
    · simp only [if_pos hn]
      rfl
    · simp only [if_neg hn]
  | .mismatch =>
    rw [hr] at h
    obtain rfl := Host.Outcome.next.inj h
    rfl
  | .outside slot => simp [hr] at h

/-- The five ways an EDGE completes are the same five on a state with another pin. -/
theorem edgeWith_withPin {p : Params} {time : Micros} {s t : State} (h : edgeWith p time s = .next t) :
    edgeWith p time { s with rxPin := pin } = .next { t with rxPin := pin } := by
  obtain ⟨hen, rfl⟩ | ⟨hen, hb, hrc, r, hr, rfl⟩ | ⟨hen, hb, hrc, rfl⟩ | ⟨hen, hgap, rfl⟩ | ⟨hen, hord, rfl⟩ :=
    edgeWith_cases h
  · exact edgeWith_disabled (s := { s with rxPin := pin }) p time hen
  · exact edgeWith_secondBoundary (s := { s with rxPin := pin }) hen hb (BitVec.eq_of_toNat_eq hrc)
      (decodeFrame_withPin pin hr)
  · exact edgeWith_firstBoundary (s := { s with rxPin := pin }) hen hb hrc
  · exact edgeWith_longGap (s := { s with rxPin := pin }) hen (classifyDuration_longGap.mp hgap)
  · exact edgeWith_ordinary (s := { s with rxPin := pin }) hen hord

end

/-- Settles O43. -/
theorem pinHasNoEffectOnReceive : Obligations.PinHasNoEffectOnReceive := by
  unfold Obligations.PinHasNoEffectOnReceive
  exact fun _ _ _ pin h => edgeWith_withPin pin h

/-! ### Pulse words while receive is disabled -/

theorem run_succ {s t : State} (k : Nat) (h : step s = .next t) :
    Host.Core.run Sys2Proof.core (k + 1) s = Host.Core.run Sys2Proof.core k t := by
  rw [Nat.add_comm]
  exact run_add Sys2Proof.core 1 k (run_one h)

/-- R71 to R73, R102: an EDGE is dropped and so is every other word of the pulse port. -/
theorem step_pulse_disabled {s : State} {w : Word} {rest : List Arrival} (hen : s.rxEn = false)
    (harr : s.arrivals = .operation .pulse w :: rest) :
    step s = .next { s with arrivals := rest, response := none } := by
  obtain ⟨i, hi, hexec⟩ | ⟨-, hrefuse⟩ := step_operation_cases harr
  · obtain ⟨-, hport⟩ := accept_ok.mp hi
    obtain ⟨time, rfl⟩ := pulse_is_edge hport
    exact hexec.trans (edgeWith_disabled (s := { s with arrivals := rest }) s.params time hen)
  · exact hrefuse

/-- Settles O31, by induction on the words after the first, each of which meets the state the first one left. -/
theorem disabledReceiveIgnoresThePulsePort : Obligations.DisabledReceiveIgnoresThePulsePort := by
  unfold Obligations.DisabledReceiveIgnoresThePulsePort
  intro words
  induction words with
  | nil => exact fun _ _ _ hne => absurd rfl hne
  | cons w words ih =>
    intro s rest hen _ harr
    rw [List.length_cons, run_succ _ (step_pulse_disabled hen harr)]
    match words with
    | [] => rfl
    | w' :: words => exact ih { s with arrivals := _, response := none } rest hen (List.cons_ne_nil w' words) rfl

end Sys2Proof.Machine
end

section
/-! PROOFS. A nominal frame (R113 to R118) as the receive path sees it: its pairs lie in the windows of its bits, so the
second boundary publishes its code (41_bit_decoder.md section 5); and a whole transmission, followed duration by
duration (40_capture_assembly.md section 2). -/

namespace Sys2Proof.Machine

open Sys2Proof.Config

/-! ### The bits of a code and the durations of a frame -/

theorem bitsValue_concat (bits : List Bool) (bit : Bool) :
    bitsValue (bits ++ [bit]) = 2 * bitsValue bits + bit.toNat := by
  rw [bitsValue, List.foldl_append]
  rfl

/-- The first `n` bits of a code are its quotient by the place of the last of them. -/
theorem bitsValue_topBits (code : Code) {n : Nat} (hn : n ≤ 28) :
    bitsValue ((List.range n).map fun k => code.getLsbD (27 - k)) = code.toNat / 2 ^ (28 - n) := by
  induction n with
  | zero => exact (Nat.div_eq_of_lt code.isLt).symm
  | succ n ih =>
    have hplace : 28 - n = 27 - n + 1 := by omega
    have hnext : 28 - (n + 1) = 27 - n := by omega
    have hbit : (code.getLsbD (27 - n)).toNat = code.toNat / 2 ^ (27 - n) % 2 := Nat.toNat_testBit ..
    rw [List.range_succ, List.map_append, List.map_singleton, bitsValue_concat, ih (by omega), hbit, hplace, hnext,
      Nat.pow_succ, ← Nat.div_div_eq_div_mul, Nat.div_add_mod]

/-- R117: the bits of a code are its value, most significant first. -/
theorem bitsValue_codeBits (code : Code) : bitsValue (codeBits code) = code.toNat :=
  (bitsValue_topBits code (Nat.le_refl 28)).trans (Nat.div_one _)

theorem length_codeBits (code : Code) : (codeBits code).length = 28 := by
  rw [codeBits, List.length_map, List.length_range]

theorem length_flatMap_bitDurations (u : Nat) (bits : List Bool) :
    (bits.flatMap (bitDurations u)).length = 2 * bits.length := by
  induction bits with
  | nil => rfl
  | cons bit bits ih =>
    have hpair : (bitDurations u bit).length = 2 := by cases bit <;> rfl
    rw [List.flatMap_cons, List.length_append, List.length_cons, ih, hpair]
    omega

theorem length_payloadDurations (code : Code) (u : Nat) : (payloadDurations code u).length = 56 := by
  rw [payloadDurations, length_flatMap_bitDurations, length_codeBits]

theorem payloadDurations_le {code : Code} {u d : Nat} (h : d ∈ payloadDurations code u) : d ≤ 3 * u := by
  obtain ⟨bit, -, hd⟩ := List.mem_flatMap.mp h
  cases bit <;> simp [bitDurations] at hd <;> omega

/-- R115, R116: where the two durations of a bit stand. -/
theorem getElem?_flatMap_bitDurations (u : Nat) {bits : List Bool} {k : Nat} {bit : Bool} (h : bits[k]? = some bit) :
    (bits.flatMap (bitDurations u))[2 * k]? = some (if bit then 3 * u else u) ∧
    (bits.flatMap (bitDurations u))[2 * k + 1]? = some (if bit then u else 3 * u) := by
  induction bits generalizing k with
  | nil => cases h
  | cons b bits ih =>
    cases k with
    | zero =>
      obtain rfl : b = bit := Option.some.inj h
      cases b <;> exact ⟨rfl, rfl⟩
    | succ k =>
      have hrest := ih (k := k) h
      cases b <;> exact hrest

/-- R118: where the two durations of a bit stand in the buffered frame. -/
theorem getElem?_frameSlots {code : Code} (u : Nat) {k : Nat} {bit : Bool} (h : (codeBits code)[k]? = some bit) :
    (frameSlots code u)[2 * k + 1]? = some (if bit then 3 * u else u) ∧
    (frameSlots code u)[2 * k + 2]? = some (if bit then u else 3 * u) := by
  obtain ⟨hhigh, hlow⟩ := getElem?_flatMap_bitDurations u h
  have inside {i d : Nat} (hi : (payloadDurations code u)[i]? = some d) : (frameSlots code u)[i + 1]? = some d := by
    have hlt : i < (payloadDurations code u).length := (List.getElem?_eq_some_iff.mp hi).1
    exact (List.getElem?_append_left hlt).trans hi
  exact ⟨inside hhigh, inside hlow⟩

/-! ### The nominal frame -/

theorem inOpenWindow_self {c tol : Nat} {x : Micros} (htol : 0 < tol) (hx : x.toNat = c) : InOpenWindow c tol x := by
  unfold InOpenWindow
  omega

/-- The nominal durations of a bit lie in its windows as soon as these are open. -/
theorem pairIs_nominal {u tol : Nat} {bit : Bool} {a b : Micros} (htol : 0 < tol)
    (ha : a.toNat = if bit then 3 * u else u) (hb : b.toNat = if bit then u else 3 * u) : PairIs u tol bit a b := by
  cases bit
  · exact ⟨inOpenWindow_self htol ha, inOpenWindow_self htol hb⟩
  · exact ⟨inOpenWindow_self htol ha, inOpenWindow_self htol hb⟩

/-- The buffer holds a list of durations from slot 0. -/
def Holds (slots : List Nat) (s : State) : Prop :=
  ∀ slot d, slots[slot]? = some d → (s.buf.read slot).toNat = d

section
variable {s : State} {code : Code} {u : Nat}

theorem specDelay_of_nominal (h : Holds (frameSlots code u) s) : specDelay s = u := by
  have hsync : (s.buf.read 0).toNat = 15 * u := h 0 _ rfl
  rw [specDelay, hsync, Nat.mul_div_cancel_left u (by decide)]

theorem framePairIs_of_nominal (h : Holds (frameSlots code u) s) (hopen : 100 ≤ u * s.tolPct.toNat) {k : Nat}
    {bit : Bool} (hk : (codeBits code)[k]? = some bit) : FramePairIs s k bit := by
  obtain ⟨hhigh, hlow⟩ := getElem?_frameSlots u hk
  have htol : 0 < specTol s := by
    rw [specTol, specDelay_of_nominal h]
    exact Nat.div_pos hopen (by decide)
  rw [FramePairIs, specDelay_of_nominal h]
  exact pairIs_nominal htol (h _ _ hhigh) (h _ _ hlow)

end

/-- Settles O29: the statement about second boundaries, for the bits of the code. -/
theorem nominalFramePublishesItsCode : Obligations.NominalFramePublishesItsCode := by
  unfold Obligations.NominalFramePublishesItsCode
  intro s time code u hp hen hb hrc hcc htol _ hopen hslots
  have hcount : s.cc.toNat = 58 := congrArg BitVec.toNat hcc
  have hcap : s.cc.toNat ≤ s.params.capacity := by
    obtain ⟨⟨hcap, -⟩, -⟩ := hp
    omega
  have hlen : (codeBits code).length = (s.cc.toNat - 1) / 2 := by rw [length_codeBits, hcount]
  have hvalue : BitVec.ofNat 32 code.toNat = code.setWidth 32 := BitVec.ofNat_toNat 32 code
  have hpublish := secondBoundaryPublishesTheFrame s time (codeBits code) hen hb hrc hcap htol (by omega) hlen
    fun k bit => framePairIs_of_nominal hslots hopen
  rw [hpublish, bitsValue_codeBits, hvalue, specDelay_of_nominal hslots, hcount]
  rfl

/-! ### One duration of a transmission -/

/-- A state that is to receive the durations `later`, at a unit whose sync low is a boundary, whose other durations are
ordinary and whose windows are open. -/
structure Receives (u : Nat) (later : List Nat) (s : State) : Prop where
  consistent : Consistent s
  enabled : s.rxEn = true
  syncLow : s.params.gapLo < 15 * u ∧ 15 * u < s.params.gapHi
  ordinary : 3 * u ≤ s.params.gapLo
  windowsOpen : 100 ≤ u * s.tolPct.toNat
  arrivals : s.arrivals = edgeArrivals s.lastTime later

/-- The buffer holds a frame so far: its durations from slot 0, counted by CC. -/
structure Buffered (slots : List Nat) (s : State) : Prop where
  count : s.cc.toNat = slots.length
  holds : Holds slots s

/-- What a receiver has published of a transmission. -/
abbrev Published (code : Code) (u : Nat) (t : State) : Prop :=
  t.rxAvail = true ∧ t.rxValue = code.setWidth 32 ∧ t.rxBitlen = 28 ∧ t.rxDelay = BitVec.ofNat 32 u

theorem sameReceiver_trans {r s t : State} (h : sameReceiver r s) (h' : sameReceiver s t) : sameReceiver r t := by
  obtain ⟨hvalue, hbitlen, hdelay, havail⟩ := h
  obtain ⟨hvalue', hbitlen', hdelay', havail'⟩ := h'
  exact ⟨hvalue'.trans hvalue, hbitlen'.trans hbitlen, hdelay'.trans hdelay, havail'.trans havail⟩

theorem published_of_sameReceiver {s t : State} {code : Code} {u : Nat} (h : sameReceiver s t)
    (hs : Published code u s) : Published code u t := by
  obtain ⟨hvalue, hbitlen, hdelay, havail⟩ := h
  obtain ⟨pavail, pvalue, pbitlen, pdelay⟩ := hs
  exact ⟨havail.trans pavail, hvalue.trans pvalue, hbitlen.trans pbitlen, hdelay.trans pdelay⟩

/-- The state `s` with its next arrival taken and the duration `d` that came with it stored, given the ReceiverState,
the slot and the repeat count. -/
def afterDuration (s r : State) (slot rc d : Nat) (later : List Nat) : State :=
  afterStore { s with arrivals := edgeArrivals (s.lastTime + BitVec.ofNat 32 d) later } r slot rc
    (s.lastTime + BitVec.ofNat 32 d)

section
variable {u d slot rc : Nat} {later slots : List Nat} {s r t : State} {code : Code}

theorem Receives.capacity_bounds (h : Receives u later s) : 67 ≤ s.params.capacity ∧ s.params.capacity ≤ 255 := by
  obtain ⟨⟨hlow, hhigh, -⟩, -⟩ := h.consistent.paramsLegal
  exact ⟨hlow, hhigh⟩

theorem Receives.gapHi_lt (h : Receives u later s) : s.params.gapHi < 2 ^ 32 := by
  obtain ⟨⟨-, -, -, hgap, -⟩, -⟩ := h.consistent.paramsLegal
  exact hgap

/-- The durations of a transmission fit 32 bits. -/
theorem Receives.lt_of_le (h : Receives u later s) (hd : d ≤ 3 * u) : d < 2 ^ 32 := by
  obtain ⟨hlow, hhigh⟩ := h.syncLow
  have hord := h.ordinary
  have hgap := h.gapHi_lt
  omega

theorem Receives.syncLow_lt (h : Receives u later s) : 15 * u < 2 ^ 32 := by
  obtain ⟨-, hhigh⟩ := h.syncLow
  exact hhigh.trans h.gapHi_lt

theorem Receives.stored (h : Receives u (d :: later) s) (hstep : step s = .next (afterDuration s r slot rc d later)) :
    Receives u later (afterDuration s r slot rc d later) :=
  ⟨h.consistent.step hstep, h.enabled, h.syncLow, h.ordinary, h.windowsOpen, rfl⟩

/-- A duration stored behind the slots that are held is held with them, and counted. -/
theorem Receives.buffered_stored (h : Receives u (d :: later) s) (hd : d < 2 ^ 32)
    (hspace : slots.length < s.params.capacity) (hholds : Holds slots s) :
    Buffered (slots ++ [d]) (afterDuration s r slots.length rc d later) := by
  refine ⟨?_, fun slot e he => ?_⟩
  · rw [List.length_append]
    exact toNat_ofNat_succ_slot h.consistent.paramsLegal.1 hspace
  · change ((s.buf.write slots.length (duration s (s.lastTime + BitVec.ofNat 32 d))).read slot).toNat = e
    rw [Memory.read_write h.consistent.bufCanonical]
    by_cases hslot : slot = slots.length
    · subst hslot
      rw [List.getElem?_concat_length] at he
      rw [if_pos rfl, duration_add s hd]
      exact Option.some.inj he
    · have hlt : slot < slots.length := by
        have := (List.getElem?_eq_some_iff.mp he).1
        rw [List.length_append, List.length_singleton] at this
        omega
      rw [List.getElem?_append_left hlt] at he
      rw [if_neg hslot, hholds slot e he]

theorem Receives.step_ordinary (h : Receives u (d :: later) s) (hd : d ≤ 3 * u) :
    step s = .next (afterDuration s s (guardedIndex s.params s.cc.toNat)
      (guardedRepeat s.params s.cc.toNat s.rc.toNat) d later) := by
  obtain ⟨hlow, hhigh⟩ := h.syncLow
  have hord := h.ordinary
  have hduration := duration_add s (h.lt_of_le hd)
  rw [step_edgeArrivals h.arrivals]
  refine exec_edge_ordinary (s := { s with arrivals := _ }) h.enabled ?_ ?_
  · rintro ⟨hb, -⟩
    exact absurd (hduration.symm.trans_gt hb) (by change ¬ s.params.gapLo < d; omega)
  · exact hduration.trans_le (by change d ≤ s.params.gapHi; omega)

/-- Below the capacity an ordinary duration goes behind the frame so far. -/
theorem Receives.step_buffered (h : Receives u (d :: later) s) (hd : d ≤ 3 * u) (hslots : Buffered slots s)
    (hspace : slots.length < s.params.capacity) :
    ∃ t, step s = .next t ∧ Receives u later t ∧ Buffered (slots ++ [d]) t ∧ t.rc = s.rc ∧ sameReceiver s t := by
  obtain ⟨hindex, hrepeat⟩ := guarded_inside (hslots.count.trans_lt hspace) s.rc.toNat
  have hstep := h.step_ordinary hd
  rw [hindex, hrepeat, hslots.count] at hstep
  have hkept : BitVec.ofNat 2 s.rc.toNat = s.rc := (BitVec.ofNat_toNat 2 s.rc).trans (BitVec.setWidth_eq s.rc)
  exact ⟨_, hstep, h.stored hstep, h.buffered_stored (h.lt_of_le hd) hspace hslots.holds, hkept, rfl, rfl, rfl, rfl⟩

theorem Receives.isBoundary (h : Receives u (15 * u :: later) s) :
    IsBoundary s (s.lastTime + BitVec.ofNat 32 (15 * u)) := by
  rw [IsBoundary, duration_add s h.syncLow_lt]
  exact h.syncLow

theorem Receives.step_firstBoundary (h : Receives u (15 * u :: later) s) (hrc : s.rc = 0) :
    step s = .next (afterDuration s s 0 1 (15 * u) later) := by
  rw [step_edgeArrivals h.arrivals]
  exact exec_edge_firstBoundary (s := { s with arrivals := _ }) h.consistent.capacity_pos h.enabled h.isBoundary hrc

theorem Receives.step_secondBoundary (h : Receives u (15 * u :: later) s) (hrc : s.rc = 1)
    (hframe : Buffered (frameSlots code u) s) : ∃ r, Published code u r ∧
      step s = .next (afterDuration s r 0 0 (15 * u) later) := by
  have hcount : s.cc.toNat = 58 := by
    rw [hframe.count, frameSlots, List.length_append, List.length_cons, length_payloadDurations]
    rfl
  have hpublish := nominalFramePublishesItsCode
    { s with arrivals := edgeArrivals (s.lastTime + BitVec.ofNat 32 (15 * u)) later } _ code u h.consistent.paramsLegal
    h.enabled h.isBoundary hrc (BitVec.eq_of_toNat_eq hcount) h.consistent.tolInRange h.syncLow_lt h.windowsOpen
    hframe.holds
  exact ⟨_, ⟨rfl, rfl, rfl, rfl⟩, (step_edgeArrivals h.arrivals).trans hpublish⟩

end

/-! ### A repetition and a transmission -/

section
variable {u d : Nat} {later slots : List Nat} {s t : State} {code : Code}

/-- Ordinary durations go behind the frame so far, one after the other. -/
theorem Receives.run_buffered {ds : List Nat} (h : Receives u (ds ++ later) s) (hslots : Buffered slots s)
    (hds : ∀ d ∈ ds, d ≤ 3 * u) (hspace : slots.length + ds.length ≤ 67) :
    ∃ t, Host.Core.run Sys2Proof.core ds.length s = .next t ∧ Receives u later t ∧ Buffered (slots ++ ds) t ∧
      t.rc = s.rc ∧ sameReceiver s t := by
  induction ds generalizing s slots with
  | nil => exact ⟨s, rfl, h, by rwa [List.append_nil], rfl, rfl, rfl, rfl, rfl⟩
  | cons d ds ih =>
    rw [List.length_cons] at hspace
    obtain ⟨hcap, -⟩ := h.capacity_bounds
    have hd := hds d List.mem_cons_self
    obtain ⟨s₁, hstep, h₁, hslots₁, hrc₁, hsame₁⟩ := h.step_buffered hd hslots (by omega)
    obtain ⟨t, hrun, hreceives, hbuffered, hrc, hsame⟩ :=
      ih h₁ hslots₁ (fun e he => hds e (List.mem_cons_of_mem d he))
        (by rw [List.length_append, List.length_singleton]; omega)
    rw [List.append_assoc, List.singleton_append] at hbuffered
    exact ⟨t, by rw [List.length_cons, run_succ _ hstep, hrun], hreceives, hbuffered, hrc.trans hrc₁,
      sameReceiver_trans hsame₁ hsame⟩

/-- What the buffer holds between two repetitions: the sync low and the bits (R118). -/
abbrev repetitionSlots (code : Code) (u : Nat) : List Nat := 15 * u :: payloadDurations code u

/-- The bits that follow a sync low just stored. -/
theorem Receives.run_payload (h : Receives u (payloadDurations code u ++ later) s) (hsync : Buffered [15 * u] s) :
    ∃ t, Host.Core.run Sys2Proof.core 56 s = .next t ∧ Receives u later t ∧ Buffered (repetitionSlots code u) t ∧
      t.rc = s.rc ∧ sameReceiver s t := by
  have hlen := length_payloadDurations code u
  have hrun := h.run_buffered hsync (fun d => payloadDurations_le) (by rw [hlen, List.length_singleton]; omega)
  rwa [hlen] at hrun

/-- An ordinary duration met with a repeat count of 0, wherever the change count stands. -/
theorem Receives.step_idle (h : Receives u (d :: later) s) (hd : d ≤ 3 * u) (hrc : s.rc = 0) :
    ∃ t, step s = .next t ∧ Receives u later t ∧ t.rc = 0 ∧ sameReceiver s t := by
  have hstep := h.step_ordinary hd
  refine ⟨_, hstep, h.stored hstep, ?_, rfl, rfl, rfl, rfl⟩
  change BitVec.ofNat 2 (guardedRepeat s.params s.cc.toNat s.rc.toNat) = 0
  rw [hrc]
  exact congrArg (BitVec.ofNat 2) (guardedRepeat_zero ..)

/-- A sync low stored at slot 0 begins a frame. -/
theorem Receives.buffered_syncLow (h : Receives u (15 * u :: later) s) (r : State) (rc : Nat) :
    Buffered [15 * u] (afterDuration s r 0 rc (15 * u) later) :=
  h.buffered_stored (slots := []) h.syncLow_lt h.consistent.capacity_pos nofun

/-- A repetition met with a repeat count of 0 is counted and publishes nothing, whatever the buffer held. -/
theorem Receives.run_countedRepetition (h : Receives u (repetitionDurations code u ++ later) s) (hrc : s.rc = 0) :
    ∃ t, Host.Core.run Sys2Proof.core 58 s = .next t ∧ Receives u later t ∧ Buffered (repetitionSlots code u) t ∧
      t.rc = 1 ∧ sameReceiver s t := by
  obtain ⟨s₁, hhigh, h₁, hrc₁, hsame₁⟩ := h.step_idle (by omega) hrc
  have hlow := h₁.step_firstBoundary hrc₁
  obtain ⟨t, hrun, hreceives, hbuffered, hrct, hsame⟩ :=
    (h₁.stored hlow).run_payload (h₁.buffered_syncLow s₁ 1)
  exact ⟨t, by rw [run_succ _ hhigh, run_succ _ hlow, hrun], hreceives, hbuffered, hrct,
    sameReceiver_trans hsame₁ hsame⟩

/-- A repetition met with a repeat count of 1 publishes the one before it. -/
theorem Receives.run_decodedRepetition (h : Receives u (repetitionDurations code u ++ later) s) (hrc : s.rc = 1)
    (hslots : Buffered (repetitionSlots code u) s) :
    ∃ t, Host.Core.run Sys2Proof.core 58 s = .next t ∧ Receives u later t ∧ Buffered (repetitionSlots code u) t ∧
      t.rc = 0 ∧ Published code u t := by
  obtain ⟨hcap, -⟩ := h.capacity_bounds
  have hlen : (repetitionSlots code u).length = 57 := congrArg (· + 1) (length_payloadDurations code u)
  have hu : u ≤ 3 * u := by omega
  obtain ⟨s₁, hhigh, h₁, hframe, hrc₁, -⟩ := h.step_buffered hu hslots (by omega)
  obtain ⟨r, hpublished, hlow⟩ := h₁.step_secondBoundary (code := code) (hrc₁.trans hrc) hframe
  obtain ⟨t, hrun, hreceives, hbuffered, hrct, hsame⟩ :=
    (h₁.stored hlow).run_payload (h₁.buffered_syncLow r 0)
  exact ⟨t, by rw [run_succ _ hhigh, run_succ _ hlow, hrun], hreceives, hbuffered, hrct,
    published_of_sameReceiver hsame hpublished⟩

/-- A transmission, by induction on its repetitions: they leave the parity of their number, and from the second one on
the code published. -/
theorem Receives.run_transmission (retries : Nat)
    (h : Receives u (transmissionDurations code u retries ++ later) s) (hrc : s.rc = 0) :
    ∃ t, Host.Core.run Sys2Proof.core (58 * (retries + 1)) s = .next t ∧ Receives u later t ∧
      Buffered (repetitionSlots code u) t ∧ t.rc.toNat = (retries + 1) % 2 ∧
      (retries = 0 → sameReceiver s t) ∧ (1 ≤ retries → Published code u t) := by
  induction retries generalizing later with
  | zero =>
    have hone : transmissionDurations code u 0 = repetitionDurations code u := List.append_nil _
    rw [hone] at h
    obtain ⟨t, hrun, hreceives, hbuffered, hrct, hsame⟩ := h.run_countedRepetition hrc
    exact ⟨t, hrun, hreceives, hbuffered, congrArg BitVec.toNat hrct, fun _ => hsame, nofun⟩
  | succ retries ih =>
    have hlast : transmissionDurations code u (retries + 1) =
        transmissionDurations code u retries ++ repetitionDurations code u := by
      rw [transmissionDurations, List.replicate_succ', List.flatten_append, List.flatten_singleton]
      rfl
    rw [hlast, List.append_assoc] at h
    obtain ⟨s₁, hrun₁, h₁, hslots₁, hparity, -, hpublished₁⟩ := ih h
    rw [Nat.mul_succ, run_add Sys2Proof.core _ 58 hrun₁]
    obtain heven | hodd := Nat.mod_two_eq_zero_or_one (retries + 1)
    · have hrc₁ : s₁.rc = 0 := BitVec.eq_of_toNat_eq (hparity.trans heven)
      obtain ⟨t, hrun, hreceives, hbuffered, hrct, hsame⟩ := h₁.run_countedRepetition hrc₁
      have hpublished := published_of_sameReceiver hsame (hpublished₁ (by omega))
      refine ⟨t, hrun, hreceives, hbuffered, ?_, nofun, fun _ => hpublished⟩
      have hone : t.rc.toNat = 1 := congrArg BitVec.toNat hrct
      omega
    · have hrc₁ : s₁.rc = 1 := BitVec.eq_of_toNat_eq (hparity.trans hodd)
      obtain ⟨t, hrun, hreceives, hbuffered, hrct, hpublished⟩ := h₁.run_decodedRepetition hrc₁ hslots₁
      refine ⟨t, hrun, hreceives, hbuffered, ?_, nofun, fun _ => hpublished⟩
      have hzero : t.rc.toNat = 0 := congrArg BitVec.toNat hrct
      omega

end

/-- Settles O30: the run of a transmission with no duration after it. -/
theorem transmissionPublishesItsCode : Obligations.TransmissionPublishesItsCode := by
  unfold Obligations.TransmissionPublishesItsCode
  intro s code u retries hconsistent hen hrc hlow hhigh hord hopen harr
  rw [← List.append_nil (transmissionDurations code u retries)] at harr
  have h : Receives u (transmissionDurations code u retries ++ []) s :=
    ⟨hconsistent, hen, ⟨hlow, hhigh⟩, hord, hopen, harr⟩
  obtain ⟨t, hrun, hreceives, -, hparity, hone, htwo⟩ := h.run_transmission retries hrc
  exact ⟨t, hrun, hreceives.arrivals, hparity, hone, htwo⟩

/-- Settles O14: both interleavings run word by word. -/
theorem claimRaceDependsOnInterleaving : Obligations.ClaimRaceDependsOnInterleaving := by
  unfold Obligations.ClaimRaceDependsOnInterleaving
  refine ⟨fun port => by cases port <;> rfl, ⟨_, rfl, rfl⟩, ⟨_, rfl, rfl, rfl⟩, ⟨_, rfl, rfl, rfl⟩, ⟨_, rfl, rfl⟩⟩

end Sys2Proof.Machine
end

section
/-! PROOFS. 10_state.md sections 2 and 7: which operations write the control registers, and that no answer depends on
the hidden state CC, RC and LAST_TIME (R40). -/

namespace Sys2Proof.Machine

/-! ### The control registers -/

theorem exec_edge_control {time : Micros} {s t : State} (h : exec (.edge time) s = .next t) : sameControl s t := by
  obtain ⟨-, rfl⟩ | ⟨-, -, -, r, hr, rfl⟩ | ⟨-, -, -, rfl⟩ | ⟨-, -, rfl⟩ | ⟨-, -, rfl⟩ := edgeWith_cases h
  · exact ⟨rfl, rfl, rfl, rfl⟩
  · exact (decodeFrame_keeps hr).control
  all_goals exact ⟨rfl, rfl, rfl, rfl⟩

/-- Settles O40: an EDGE keeps the control registers; of the six outcomes of a host operation one keeps them all, and
each of the others writes what its own operation may write. -/
theorem controlRegisterWriters : Obligations.ControlRegisterWriters := by
  unfold Obligations.ControlRegisterWriters
  intro i s t h
  match hi : i.port with
  | .pulse =>
    obtain ⟨time, rfl⟩ := pulse_is_edge hi
    obtain ⟨hen, hvalid, hpin, htol⟩ := exec_edge_control h
    exact ⟨.inr (.inr hen), hvalid.trans, .inr ⟨hpin, hvalid⟩, .inr htol⟩
  | .host =>
    obtain ⟨u, r, he, hu⟩ := exec_host_cases s hi
    obtain rfl : { u with response := some r } = t := Host.Outcome.next.inj (he.symm.trans h)
    obtain ⟨rfl, -⟩ | ⟨-, ⟨pin, rfl, rfl⟩ | ⟨rfl, hvalid, rfl⟩ | ⟨rfl, rfl⟩ | ⟨pct, rfl, hpct, rfl⟩ | ⟨-, rfl⟩⟩ := hu
    · exact ⟨.inr (.inr rfl), id, .inr ⟨rfl, rfl⟩, .inr rfl⟩
    · exact ⟨.inl ⟨rfl, .inl ⟨pin, rfl⟩⟩, fun _ => rfl, .inl ⟨pin, rfl, rfl, rfl⟩, .inr rfl⟩
    · exact ⟨.inl ⟨rfl, .inr ⟨rfl, hvalid⟩⟩, fun _ => rfl, .inr ⟨rfl, hvalid.symm⟩, .inr rfl⟩
    · exact ⟨.inr (.inl ⟨rfl, rfl⟩), id, .inr ⟨rfl, rfl⟩, .inr rfl⟩
    · exact ⟨.inr (.inr rfl), id, .inr ⟨rfl, rfl⟩, .inl ⟨pct, rfl, toNat_pctValue (of_decide_eq_true hpct)⟩⟩
    · exact ⟨.inr (.inr rfl), id, .inr ⟨rfl, rfl⟩, .inr rfl⟩

/-! ### The answer of an operation -/

/-- The data an operation answers when its operand is in range: the reads and the cipher read it off the state before
them (R169 to R175, R140, R147), every other operation answers 0. -/
def answerData : Instr → State → BitVec 32
  | .rxAvailable, s => flagData s.rxAvail
  | .rxGetValue, s => s.rxValue
  | .rxGetBitlen, s => s.rxBitlen
  | .rxGetDelay, s => s.rxDelay
  | .rxGetRaw idx, s => s.buf.read idx.toNat
  | .rxGetConfig, s => configData s.params s
  | .cipherDecrypt code, s => fieldsData (decryptWith s.params code)
  | .cipherEncrypt rid val rcode tid, s => (encryptWith s.params rid val rcode tid).setWidth 32
  | _, _ => 0

/-- The answer of a host operation, as a function of the state before it (R66, R193). -/
def answer (i : Instr) (s : State) : Response :=
  if i.wellFormed s.params then ⟨.ok, answerData i s⟩ else ⟨.errRange, 0⟩

theorem exec_answerData {i : Instr} (s : State) (hi : i.port = .host) (hw : i.wellFormed s.params = true) :
    ∃ u, exec i s = .next (responding u .ok (answerData i s)) := by
  cases i with
  | edge time => cases hi
  | rxEnable pin => exact ⟨_, exec_rxEnable pin s⟩
  | rxRearm =>
    match hpin : s.rxPinValid with
    | true => exact ⟨_, (exec_rxRearm_of_pin hpin).trans (exec_rxEnable s.rxPin s)⟩
    | false => exact ⟨_, exec_rxRearm_of_no_pin hpin⟩
  | rxDisable => exact ⟨_, exec_rxDisable s⟩
  | rxSetTol pct => exact ⟨_, exec_rxSetTol_of_le s (of_decide_eq_true hw)⟩
  | rxAvailable => exact ⟨_, exec_rxAvailable s⟩
  | rxResetAvailable => exact ⟨_, exec_rxResetAvailable s⟩
  | rxGetValue => exact ⟨_, exec_rxGetValue s⟩
  | rxGetBitlen => exact ⟨_, exec_rxGetBitlen s⟩
  | rxGetDelay => exact ⟨_, exec_rxGetDelay s⟩
  | rxGetRaw idx => exact ⟨_, exec_rxGetRaw_inside (of_decide_eq_true hw)⟩
  | rxGetConfig => exact ⟨_, exec_rxGetConfig s⟩
  | cipherDecrypt code => exact ⟨_, exec_cipherDecrypt code s⟩
  | cipherEncrypt rid val rcode tid => exact ⟨_, exec_cipherEncrypt rid val rcode tid s⟩

theorem exec_response_eq_answer {i : Instr} {s t : State} (hi : i.port = .host) (h : exec i s = .next t) :
    t.response = some (answer i s) := by
  unfold answer
  match hw : i.wellFormed s.params with
  | true =>
    obtain ⟨u, he⟩ := exec_answerData s hi hw
    obtain rfl := Host.Outcome.next.inj (he.symm.trans h)
    rfl
  | false =>
    obtain rfl := Host.Outcome.next.inj ((exec_of_not_wellFormed hw).symm.trans h)
    rfl

theorem answerData_hidden (i : Instr) (s : State) (cc : BitVec 8) (rc : BitVec 2) (lastTime : Micros) :
    answerData i { s with cc := cc, rc := rc, lastTime := lastTime } = answerData i s := by
  cases i <;> rfl

/-- Settles O42: `answer` reads no hidden state. -/
theorem hostCannotReadHiddenState : Obligations.HostCannotReadHiddenState := by
  unfold Obligations.HostCannotReadHiddenState
  intro i s t t' cc rc lastTime hi h h'
  rw [exec_response_eq_answer hi h, exec_response_eq_answer hi h', answer, answer, answerData_hidden]

end Sys2Proof.Machine
end

section
/-! PROOFS. 42_cipher.md: the rounds are the loops of R140 and R147, decrypt undoes encrypt on fields in range (R156),
and fields out of range are reduced (R155, R157, R158, R160). -/

namespace Sys2Proof.Machine

open Sys2Proof.Config

/-! ### The rounds -/

theorem decryptRound_toList (p : Params) (r : Nat) (n : Nibbles) :
    (decryptRound p r n).toList = decryptRoundInPlace p r n.toList := rfl

theorem encryptRound_toList (p : Params) (s : Nat) (n : Nibbles) :
    (encryptRound p s n).toList = encryptRoundInPlace p s n.toList := rfl

/-- Settles O47: both sides write the same seven nibbles. -/
theorem roundsAgreeWithInPlaceLoops : Obligations.RoundsAgreeWithInPlaceLoops := by
  unfold Obligations.RoundsAgreeWithInPlaceLoops
  exact fun p r n => ⟨decryptRound_toList p r n, encryptRound_toList p r n⟩

/-- Settles O49: the two computations, which read only the two tables. -/
theorem knownCipherVector : Obligations.KnownCipherVector := by
  unfold Obligations.KnownCipherVector
  intro s hkey hikey
  have hencrypt : encryptWith defaultParams 1 1 0 0x1234 = 0x24B4D96 := by decide
  have hdecrypt : fieldsData (decryptWith defaultParams 0x24B4D96) = 0x12340011 := by decide
  rw [exec_cipherEncrypt, exec_cipherDecrypt, encryptWith_eq_of_key_eq hkey, decryptWith_eq_of_ikey_eq hikey, hencrypt,
    hdecrypt]
  exact ⟨rfl, rfl⟩

/-! ### Decrypt undoes encrypt up to the fields -/

/-- Every step of decrypt takes back the step of encrypt that stands in its place from the end (R150, R151). -/
theorem decryptWith_encryptWith {p : Params} (hp : p.tablesLegal) (rid : Nibble) (val rcode : BitVec 8)
    (tid : BitVec 16) : decryptWith p (encryptWith p rid val rcode tid) = fieldsOf (nibblesOf rid val rcode tid) := by
  rw [decryptWith, encryptWith, rotl28_rotr28, splitNibbles_packNibbles, whiten_whiten,
    decryptRound_encryptRound (unsubstitute_zero_substitute_one hp),
    decryptRound_encryptRound (unsubstitute_one_substitute_zero hp)]

/-! ### The nibbles of the fields -/

section
variable (rid : Nibble) (val rcode : BitVec 8) (tid : BitVec 16)

/-- R149: nibble 1 holds the rolling code mod 4, whether the value is above 0, and a 0. -/
theorem nibblesOf_n1 : (nibblesOf rid val rcode tid).n1 =
    rcode.setWidth 2 ++ BitVec.ofBool (decide (0 < val.toNat)) ++ 0#1 := by
  simp only [nibblesOf]
  refine BitVec.eq_of_getLsbD_eq fun i hi => ?_
  rw [BitVec.getLsbD_append, BitVec.getLsbD_append]
  by_cases hval : 0 < val.toNat
  all_goals
    simp only [hval, if_true, if_false, decide_true, decide_false]
    interval_cases i <;> simp

theorem fieldsOf_nibblesOf_tid : (fieldsOf (nibblesOf rid val rcode tid)).tid = tid := by
  apply BitVec.eq_of_toNat_eq
  simp only [fieldsOf, nibblesOf, toNat_append_add, BitVec.extractLsb'_toNat, Nat.shiftRight_eq_div_pow]
  omega

theorem fieldsOf_nibblesOf_rcode : (fieldsOf (nibblesOf rid val rcode tid)).rcode = rcode.setWidth 2 := by
  rw [fieldsOf, nibblesOf_n1, BitVec.append_assoc]
  exact BitVec.extractLsb'_append_eq_left

/-- R145 on the nibbles of R149. -/
theorem fieldsOf_nibblesOf_val_eq : (fieldsOf (nibblesOf rid val rcode tid)).val =
    (BitVec.ofBool (decide (0 < val.toNat))).setWidth 4 + ((nibblesOf 0 val 0 0).n6 &&& 7) +
      ((nibblesOf 0 val 0 0).n6 &&& 8) >>> 3 := by
  have hflag : (nibblesOf rid val rcode tid).n1.extractLsb' 1 1 = BitVec.ofBool (decide (0 < val.toNat)) := by
    rw [nibblesOf_n1, BitVec.extractLsb'_append_eq_of_le (by decide)]
    exact BitVec.extractLsb'_append_eq_right
  rw [fieldsOf, hflag]
  rfl

end

/-- The three parts of a value of 0 to 9 add up to it. -/
theorem value_parts : ∀ v < 10, (BitVec.ofBool (decide (0 < (BitVec.ofNat 8 v).toNat))).setWidth 4 +
    ((nibblesOf 0 (BitVec.ofNat 8 v) 0 0).n6 &&& 7) + ((nibblesOf 0 (BitVec.ofNat 8 v) 0 0).n6 &&& 8) >>> 3 =
      BitVec.ofNat 4 v := by
  decide

theorem fieldsOf_nibblesOf_val (rid : Nibble) {val : BitVec 8} (rcode : BitVec 8) (tid : BitVec 16)
    (hval : val.toNat ≤ 9) : (fieldsOf (nibblesOf rid val rcode tid)).val = val.setWidth 4 := by
  have hparts := value_parts val.toNat (Nat.lt_succ_of_le hval)
  rw [BitVec.ofNat_toNat, BitVec.setWidth_eq] at hparts
  rw [fieldsOf_nibblesOf_val_eq, hparts, BitVec.ofNat_toNat]

/-- R156: the fields survive the nibbles, for a value of 0 to 9. -/
theorem fieldsOf_nibblesOf (rid : Nibble) {val : BitVec 8} (rcode : BitVec 8) (tid : BitVec 16) (hval : val.toNat ≤ 9) :
    fieldsOf (nibblesOf rid val rcode tid) = ⟨rid, val.setWidth 4, rcode.setWidth 2, tid⟩ := by
  rw [← fieldsOf_nibblesOf_val rid rcode tid hval, ← fieldsOf_nibblesOf_rcode rid val rcode tid]
  conv_rhs => rw [← fieldsOf_nibblesOf_tid rid val rcode tid]
  rfl

/-! ### Round trips -/

theorem decryptWith_encryptWith_of_le {p : Params} (hp : p.tablesLegal) (rid : Nibble) {val : BitVec 8}
    (rcode : BitVec 8) (tid : BitVec 16) (hval : val.toNat ≤ 9) :
    decryptWith p (encryptWith p rid val rcode tid) = ⟨rid, val.setWidth 4, rcode.setWidth 2, tid⟩ :=
  (decryptWith_encryptWith hp rid val rcode tid).trans (fieldsOf_nibblesOf rid rcode tid hval)

/-- Settles O50. -/
theorem roundTripForLegalTables : Obligations.RoundTripForLegalTables := by
  unfold Obligations.RoundTripForLegalTables
  exact fun _ rid _ rcode tid hp hval => decryptWith_encryptWith_of_le hp rid rcode tid hval

/-- R146. -/
theorem toNat_fieldsData (f : Fields) :
    (fieldsData f).toNat = f.tid.toNat * 2 ^ 16 + f.rcode.toNat * 2 ^ 8 + f.val.toNat * 2 ^ 4 + f.rid.toNat := by
  have hrcode : (f.rcode.setWidth 8).toNat = f.rcode.toNat := BitVec.toNat_setWidth_of_le (by decide)
  simp only [fieldsData, toNat_append_add, hrcode]
  omega

/-- Settles O51: the code of the round trip, and R146 for its fields. -/
theorem cipherOperationsRoundTrip : Obligations.CipherOperationsRoundTrip := by
  unfold Obligations.CipherOperationsRoundTrip
  intro p rid val rcode tid hp hval
  refine ⟨encryptWith p rid val rcode tid, fun s hs => ?_, fun s hs => ?_⟩
  · rw [exec_cipherEncrypt, hs]
  · have hval4 : (val.setWidth 4).toNat = val.toNat := by rw [BitVec.toNat_setWidth, Nat.mod_eq_of_lt (by omega)]
    have hrcode : (rcode.setWidth 2).toNat = rcode.toNat % 4 := BitVec.toNat_setWidth ..
    rw [exec_cipherDecrypt, hs, decryptWith_encryptWith_of_le hp rid rcode tid hval, ← hval4, ← hrcode,
      ← toNat_fieldsData ⟨rid, val.setWidth 4, rcode.setWidth 2, tid⟩, BitVec.ofNat_toNat, BitVec.setWidth_eq]

/-! ### Fields out of range -/

section
variable (p : Params) (rid : Nibble) (val rcode : BitVec 8) (tid : BitVec 16)

/-- R155, R157: a VAL of 10 or more is above 0 and in no other range. -/
theorem nibblesOf_of_ten_le (h : 10 ≤ val.toNat) : nibblesOf rid val rcode tid = nibblesOf rid 1 rcode tid := by
  have hpositive : 0 < val.toNat := by omega
  have hrange : ¬ (2 ≤ val.toNat ∧ val.toNat ≤ 9) := by omega
  simp only [nibblesOf, if_pos hpositive, if_neg hrange]
  rfl

theorem encryptWith_of_ten_le (h : 10 ≤ val.toNat) :
    encryptWith p rid val rcode tid = encryptWith p rid 1 rcode tid := by
  rw [encryptWith, nibblesOf_of_ten_le rid val rcode tid h, encryptWith]

/-- RCODE enters nibble 1 alone, and there only its low two bits. -/
theorem nibblesOf_of_rcode {rcode' : BitVec 8} (h : rcode'.setWidth 2 = rcode.setWidth 2) :
    nibblesOf rid val rcode' tid = nibblesOf rid val rcode tid := by
  have hn1 : (nibblesOf rid val rcode' tid).n1 = (nibblesOf rid val rcode tid).n1 := by
    rw [nibblesOf_n1, nibblesOf_n1, h]
  exact congrArg (fun n1 => { nibblesOf rid val rcode tid with n1 := n1 }) hn1

theorem encryptWith_of_rcode {rcode' : BitVec 8} (h : rcode'.setWidth 2 = rcode.setWidth 2) :
    encryptWith p rid val rcode' tid = encryptWith p rid val rcode tid := by
  rw [encryptWith, nibblesOf_of_rcode rid val rcode tid h, encryptWith]

end

/-- Settles O52. -/
theorem encryptReducesItsFields : Obligations.EncryptReducesItsFields := by
  unfold Obligations.EncryptReducesItsFields
  intro p rid val rcode tid
  refine ⟨encryptWith_of_ten_le p rid val rcode tid, (encryptWith_of_rcode p rid val rcode tid ?_).symm⟩
  bv_omega

/-- A value of R145 is the sum of a bit, three bits and a bit. -/
theorem value_parts_le : ∀ (flag : BitVec 1) (n6 : Nibble),
    (flag.setWidth 4 + (n6 &&& 7) + (n6 &&& 8) >>> 3).toNat ≤ 9 := by
  decide

theorem fieldsOf_val_le (n : Nibbles) : (fieldsOf n).val.toNat ≤ 9 := value_parts_le _ n.n6

/-- Settles O53. -/
theorem decryptFieldsAreInRange : Obligations.DecryptFieldsAreInRange := by
  unfold Obligations.DecryptFieldsAreInRange
  intro code s
  have hval : (decryptWith s.params code).val.toNat ≤ 9 := fieldsOf_val_le _
  have hrcode := (decryptWith s.params code).rcode.isLt
  have hrid := (decryptWith s.params code).rid.isLt
  refine ⟨_, exec_cipherDecrypt code s, ?_⟩
  rw [toNat_fieldsData]
  omega

/-- Every code that some encrypt produces is produced from a value of 0 to 9. -/
theorem exists_value_le_nine (p : Params) (rid : Nibble) (val rcode : BitVec 8) (tid : BitVec 16) :
    ∃ v : BitVec 8, v.toNat ≤ 9 ∧ encryptWith p rid val rcode tid = encryptWith p rid v rcode tid := by
  by_cases h : val.toNat ≤ 9
  · exact ⟨val, h, rfl⟩
  · exact ⟨1, by decide, encryptWith_of_ten_le p rid val rcode tid (by omega)⟩

/-- R160 for a value in range: the fields that decrypt gives back encrypt alike. -/
theorem reencrypt_encryptWith {p : Params} (hp : p.tablesLegal) (rid : Nibble) {val : BitVec 8} (rcode : BitVec 8)
    (tid : BitVec 16) (hval : val.toNat ≤ 9) :
    let f := decryptWith p (encryptWith p rid val rcode tid)
    encryptWith p f.rid (f.val.setWidth 8) (f.rcode.setWidth 8) f.tid = encryptWith p rid val rcode tid := by
  have hback : (val.setWidth 4).setWidth 8 = val := by bv_omega
  rw [decryptWith_encryptWith_of_le hp rid rcode tid hval]
  simp only [hback]
  exact encryptWith_of_rcode p rid val rcode tid (by bv_omega)

/-- Settles O54. -/
theorem reencryptionFixesEncryptedCodes : Obligations.ReencryptionFixesEncryptedCodes := by
  unfold Obligations.ReencryptionFixesEncryptedCodes
  intro p code hp
  constructor
  · exact fun h => ⟨_, _, _, _, h⟩
  · rintro ⟨rid, val, rcode, tid, rfl⟩
    obtain ⟨v, hv, hencrypt⟩ := exists_value_le_nine p rid val rcode tid
    rw [hencrypt]
    exact reencrypt_encryptWith hp rid rcode tid hv

end Sys2Proof.Machine
end

section
/-! PROOFS. 30_encoding.md section 5: the line that disassembly gives for a word assembles to it on its own port (R77,
R81), and its characters, after a port letter, read back as the same line. -/

namespace Sys2Proof.Machine

/-! ### Reassembly -/

/-- R77: what is printed of a field fits the field. -/
theorem fitOperand_toNat {width : Nat} (x : BitVec width) : fitOperand width x.toNat = some x := by
  rw [fitOperand, if_pos x.isLt, BitVec.ofNat_toNat, BitVec.setWidth_eq]

theorem assembleInstr_printOperands (i : Instr) :
    assembleInstr i.opcode ((printOperands i).map Numeral.value) = some i := by
  cases i with
  | edge time => exact congrArg (Option.map Instr.edge) (fitOperand_toNat time)
  | rxEnable pin => exact congrArg (Option.map Instr.rxEnable) (fitOperand_toNat pin)
  | rxSetTol pct => exact congrArg (Option.map Instr.rxSetTol) (fitOperand_toNat pct)
  | rxGetRaw idx => exact congrArg (Option.map Instr.rxGetRaw) (fitOperand_toNat idx)
  | cipherDecrypt code => exact congrArg (Option.map Instr.cipherDecrypt) (fitOperand_toNat code)
  | cipherEncrypt rid val rcode tid =>
    simp [Instr.opcode, printOperands, Numeral.value, assembleInstr, fitOperand_toNat]
  | _ => rfl

/-- What disassembly gives: the operation's line, or the word itself (R81). -/
theorem disassemble_cases (w : Word) :
    (∃ i, decode w = .ok i ∧ disassemble w = .line i.opcode (printOperands i)) ∨ disassemble w = .word64 w := by
  unfold disassemble
  match decode w with
  | .ok i => exact .inl ⟨i, rfl, rfl⟩
  | .error _ => exact .inr rfl

theorem assembleLine_operation (now : Nat) (i : Instr) :
    assembleLine now ((Printed.line i.opcode (printOperands i)).onPort i.port) =
      some (timeAfter now i, [.operation i.port (encode i)]) := by
  simp only [Printed.onPort, assembleLine, assembleInstr_printOperands, if_true]

theorem assembleLine_word64 (now : Nat) (port : Port) (w : Word) :
    assembleLine now ((Printed.word64 w).onPort port) = some (now, [.operation port w]) := by
  rw [Printed.onPort, assembleLine, fitOperand_toNat]
  rfl

/-- Settles O55: an operation's line encodes it again, which is the word; an illegal word stands in its line as it
is. -/
theorem disassemblyReassembles : Obligations.DisassemblyReassembles := by
  unfold Obligations.DisassemblyReassembles
  intro now w
  obtain ⟨i, hi, hline⟩ | hline := disassemble_cases w
  · rw [hline, deliveryPort_of_decode hi, assembleLine_operation, encode_of_decode hi]
    exact ⟨_, rfl⟩
  · rw [hline, assembleLine_word64]
    exact ⟨_, rfl⟩

/-! ### Characters -/

/-- A character that none of the separators of a line is (R77): no blank, comma or semicolon. -/
def isPlain (c : Char) : Bool := ! isBlank c && c != ',' && c != ';'

/-- A text of plain characters. -/
def Plain (t : Text) : Prop := ∀ c ∈ t, isPlain c = true

theorem plain_of_all {t : Text} (h : t.all isPlain = true) : Plain t := List.all_eq_true.mp h

section
variable {c : Char} {t r : Text}

theorem isPlain_iff : isPlain c = true ↔ isBlank c = false ∧ c ≠ ',' ∧ c ≠ ';' := by
  simp [isPlain, and_assoc]

theorem dropComment_eq_self (h : ∀ c ∈ t, c ≠ ';') : dropComment t = t :=
  List.takeWhile_eq_self_iff.mpr fun c hc => bne_iff_ne.mpr (h c hc)

theorem splitWord_blank (hc : isBlank c = true) : splitWord (c :: t) = splitWord t := by
  rw [splitWord, List.dropWhile_cons_of_pos hc, splitWord]

/-- A plain word ends where the text does or a blank stands. -/
theorem splitWord_append (ht : Plain t) (hne : t ≠ []) (hr : ∀ c ∈ r.head?, isBlank c = true) :
    splitWord (t ++ r) = (t, r) := by
  have word : ∀ c ∈ t, (! isBlank c) = true := fun c hc => by
    obtain ⟨hblank, -⟩ := isPlain_iff.mp (ht c hc)
    rw [hblank, Bool.not_false]
  have start : (t ++ r).dropWhile isBlank = t ++ r := by
    match t, hne with
    | c :: t, _ =>
      have hc := word c List.mem_cons_self
      exact List.dropWhile_cons_of_neg (by simpa using hc)
  have stop : r.takeWhile (! isBlank ·) = [] ∧ r.dropWhile (! isBlank ·) = r := by
    match r with
    | [] => exact ⟨rfl, rfl⟩
    | c :: r =>
      have hc := hr c rfl
      exact ⟨List.takeWhile_cons_of_neg (by simp [hc]), List.dropWhile_cons_of_neg (by simp [hc])⟩
  obtain ⟨hnone, hrest⟩ := stop
  rw [splitWord, start, List.span_eq_takeWhile_dropWhile, List.takeWhile_append_of_pos word,
    List.dropWhile_append_of_pos word, hnone, hrest, List.append_nil]

theorem splitWord_plain (ht : Plain t) (hne : t ≠ []) : splitWord t = (t, []) := by
  have hend := splitWord_append (r := []) ht hne nofun
  rwa [List.append_nil] at hend

theorem splitCommas_plain (ht : ∀ c ∈ t, c ≠ ',') : splitCommas t = [t] := by
  induction t with
  | nil => rfl
  | cons c t ih =>
    rw [splitCommas, ih fun d hd => ht d (List.mem_cons_of_mem c hd)]
    exact if_neg (ht c List.mem_cons_self)

theorem splitCommas_ne_nil : splitCommas t ≠ [] := by
  cases t with
  | nil => simp [splitCommas]
  | cons c t =>
    rw [splitCommas]
    split
    · simp
    · split <;> simp

theorem splitCommas_comma (ht : ∀ c ∈ t, c ≠ ',') : splitCommas (t ++ ',' :: r) = t :: splitCommas r := by
  induction t with
  | nil =>
    rw [List.nil_append, splitCommas]
    match h : splitCommas r with
    | [] => exact absurd h splitCommas_ne_nil
    | piece :: pieces => exact if_pos rfl
  | cons c t ih =>
    rw [List.cons_append, splitCommas, ih fun d hd => ht d (List.mem_cons_of_mem c hd)]
    exact if_neg (ht c List.mem_cons_self)

end

/-! ### Numbers -/

theorem digitValue_digitChar {d : Nat} (h : d < 16) : digitValue (digitChar d) = some d := by
  interval_cases d <;> decide

theorem isPlain_digitChar {d : Nat} (h : d < 16) : isPlain (digitChar d) = true := by
  interval_cases d <;> decide

theorem digitChar_ne_x {d : Nat} (h : d < 16) : digitChar d ≠ 'x' := by
  interval_cases d <;> decide

theorem readDigits_digitChar {base acc d : Nat} (hbase : base ≤ 16) (hd : d < base) (cs : Text) :
    readDigits base acc (digitChar d :: cs) = readDigits base (acc * base + d) cs := by
  rw [readDigits, digitValue_digitChar (hd.trans_le hbase)]
  exact if_pos hd

/-- The digits printed of a number read as the number. -/
theorem readDigits_printDigits {base : Nat} (hbase : base ≤ 16) (hpos : 0 < base) (count : Nat) {n : Nat}
    (hn : n < base ^ (count + 1)) (rest : Text) :
    readDigits base 0 (printDigits base (count + 1) n rest) = readDigits base n rest := by
  induction count generalizing n rest with
  | zero =>
    rw [Nat.zero_add, Nat.pow_one] at hn
    rw [printDigits, if_pos hn, readDigits_digitChar hbase hn, Nat.zero_mul, Nat.zero_add]
  | succ count ih =>
    rw [printDigits]
    split
    · next hsmall => rw [readDigits_digitChar hbase hsmall, Nat.zero_mul, Nat.zero_add]
    · have hquotient : n / base < base ^ (count + 1) := Nat.div_lt_of_lt_mul (Nat.pow_succ' ▸ hn)
      rw [ih hquotient, readDigits_digitChar hbase (Nat.mod_lt n hpos), Nat.div_add_mod']

theorem readDigits_printHexDigits (count : Nat) {n : Nat} (hn : n < 16 ^ count) (rest : Text) :
    readDigits 16 0 (printHexDigits count n rest) = readDigits 16 n rest := by
  induction count generalizing n rest with
  | zero =>
    obtain rfl : n = 0 := by simpa using hn
    rfl
  | succ count ih =>
    have hquotient : n / 16 < 16 ^ count := Nat.div_lt_of_lt_mul (Nat.pow_succ' ▸ hn)
    rw [printHexDigits, ih hquotient, readDigits_digitChar (Nat.le_refl 16) (Nat.mod_lt n (by decide)),
      Nat.div_add_mod']

theorem mem_printDigits {base : Nat} (hpos : 0 < base) {c : Char} (count n : Nat) {rest : Text}
    (hc : c ∈ printDigits base count n rest) : c ∈ rest ∨ ∃ d < base, c = digitChar d := by
  induction count generalizing n rest with
  | zero => exact .inl hc
  | succ count ih =>
    rw [printDigits] at hc
    split at hc
    · next hsmall =>
      obtain rfl | hrest := List.mem_cons.mp hc
      · exact .inr ⟨n, hsmall, rfl⟩
      · exact .inl hrest
    · obtain hcons | hdigit := ih (n / base) hc
      · obtain rfl | hrest := List.mem_cons.mp hcons
        · exact .inr ⟨n % base, Nat.mod_lt n hpos, rfl⟩
        · exact .inl hrest
      · exact .inr hdigit

theorem mem_printHexDigits {c : Char} (count n : Nat) {rest : Text} (hc : c ∈ printHexDigits count n rest) :
    c ∈ rest ∨ ∃ d < 16, c = digitChar d := by
  induction count generalizing n rest with
  | zero => exact .inl hc
  | succ count ih =>
    obtain hcons | hdigit := ih (n / 16) hc
    · obtain rfl | hrest := List.mem_cons.mp hcons
      · exact .inr ⟨n % 16, Nat.mod_lt n (by decide), rfl⟩
      · exact .inl hrest
    · exact .inr hdigit

theorem length_printDigits (base count n : Nat) (rest : Text) :
    rest.length ≤ (printDigits base count n rest).length := by
  induction count generalizing n rest with
  | zero => exact Nat.le_refl _
  | succ count ih =>
    rw [printDigits]
    split
    · exact Nat.le_succ _
    · exact (Nat.le_succ _).trans (ih (n / base) (digitChar (n % base) :: rest))

theorem length_printHexDigits (count n : Nat) (rest : Text) :
    (printHexDigits count n rest).length = count + rest.length := by
  induction count generalizing n rest with
  | zero => exact (Nat.zero_add _).symm
  | succ count ih => rw [printHexDigits, ih, List.length_cons, Nat.add_right_comm]; rfl

theorem printDigits_ne_nil (base count n : Nat) (rest : Text) : printDigits base (count + 1) n rest ≠ [] := by
  rw [printDigits]
  split
  · exact List.cons_ne_nil _ _
  · exact List.ne_nil_of_length_pos ((Nat.succ_pos _).trans_le (length_printDigits base count _ (_ :: rest)))

theorem readNumber_hex {digits : Text} (h : digits ≠ []) :
    readNumber ('0' :: 'x' :: digits) = readDigits 16 0 digits := by
  match digits, h with
  | _ :: _, _ => rfl

theorem readNumber_dec {digits : Text} (h : digits ≠ []) (hx : 'x' ∉ digits) :
    readNumber digits = readDigits 10 0 digits := by
  unfold readNumber
  split
  · exact absurd rfl h
  · simp at hx
  · simp at hx
  · rfl

/-- Bounds within which a numeral prints whole: 10 digits (R81). -/
def Numeral.fits : Numeral → Prop
  | .hex n => n < 16 ^ 10
  | .dec n => n < 10 ^ 10

theorem Numeral.text_plain (n : Numeral) : Plain n.text := by
  intro c hc
  match n with
  | .hex n =>
    obtain rfl | rfl | hdigit : c = '0' ∨ c = 'x' ∨ c ∈ printDigits 16 10 n [] := by simpa [Numeral.text] using hc
    · rfl
    · rfl
    · obtain hnil | ⟨d, hd, rfl⟩ := mem_printDigits (by decide) 10 n hdigit
      · cases hnil
      · exact isPlain_digitChar hd
  | .dec n =>
    obtain hnil | ⟨d, hd, rfl⟩ := mem_printDigits (by decide) 10 n hc
    · cases hnil
    · exact isPlain_digitChar (by omega)

theorem Numeral.text_ne_nil (n : Numeral) : n.text ≠ [] := by
  match n with
  | .hex n => exact List.cons_ne_nil _ _
  | .dec n => exact printDigits_ne_nil 10 9 n []

theorem readNumber_text {n : Numeral} (h : n.fits) : readNumber n.text = some n.value := by
  match n with
  | .hex n =>
    rw [Numeral.text, readNumber_hex (printDigits_ne_nil 16 9 n []), readDigits_printDigits (by decide) (by decide) 9 h]
    rfl
  | .dec n =>
    have hx : 'x' ∉ printDigits 10 10 n [] := fun hc => by
      obtain hnil | ⟨d, hd, hxd⟩ := mem_printDigits (by decide) 10 n hc
      · cases hnil
      · exact digitChar_ne_x (by omega) hxd.symm
    rw [Numeral.text, readNumber_dec (printDigits_ne_nil 10 9 n []) hx,
      readDigits_printDigits (by decide) (by decide) 9 h]
    rfl

/-- No operand has more than 32 bits (R69). -/
theorem fits_of_width {width : Nat} (x : BitVec width) (hwidth : width ≤ 32) :
    (Numeral.hex x.toNat).fits ∧ (Numeral.dec x.toNat).fits := by
  have hx : x.toNat < 2 ^ 32 := x.isLt.trans_le (Nat.pow_le_pow_right (by decide) hwidth)
  exact ⟨hx.trans (by decide), hx.trans (by decide)⟩

theorem printOperands_fit (i : Instr) : ∀ n ∈ printOperands i, n.fits := by
  cases i with
  | edge x | cipherDecrypt x => exact List.forall_mem_singleton.mpr (fits_of_width x (by decide)).1
  | rxEnable x | rxSetTol x | rxGetRaw x => exact List.forall_mem_singleton.mpr (fits_of_width x (by decide)).2
  | cipherEncrypt rid val rcode tid =>
    simp only [printOperands, List.forall_mem_cons]
    exact ⟨(fits_of_width rid (by decide)).2, (fits_of_width val (by decide)).2, (fits_of_width rcode (by decide)).2,
      (fits_of_width tid (by decide)).2, nofun⟩
  | _ => exact nofun

/-! ### Operands -/

/-- A number behind a blank is a piece. -/
theorem readPiece_blank {t : Text} (ht : Plain t) (hne : t ≠ []) : readPiece (' ' :: t) = readNumber t := by
  rw [readPiece, splitWord_blank rfl, splitWord_plain ht hne]
  rfl

theorem ne_comma_of_plain {t : Text} (ht : Plain t) : ∀ c ∈ ' ' :: t, c ≠ ',' := by
  refine List.forall_mem_cons.mpr ⟨by decide, fun c hc => ?_⟩
  obtain ⟨-, hcomma, -⟩ := isPlain_iff.mp (ht c hc)
  exact hcomma

/-- One number behind a blank. -/
theorem readPieces_single {t : Text} (ht : Plain t) (hne : t ≠ []) {v : Nat} (hv : readNumber t = some v) :
    readPieces (splitCommas (' ' :: t)) = some [v] := by
  simp only [splitCommas_plain (ne_comma_of_plain ht), readPieces, readPiece_blank ht hne, hv]

/-- R77: numbers separated by commas, by induction on them. -/
theorem readPieces_joinNumerals {ns : List Numeral} (hne : ns ≠ []) (hfit : ∀ n ∈ ns, n.fits) :
    readPieces (splitCommas (' ' :: joinNumerals ns)) = some (ns.map Numeral.value) := by
  induction ns with
  | nil => exact absurd rfl hne
  | cons n ns ih =>
    obtain ⟨hn, hrest⟩ := List.forall_mem_cons.mp hfit
    match ns with
    | [] => exact readPieces_single n.text_plain n.text_ne_nil (readNumber_text hn)
    | m :: ns =>
      have hjoin : ' ' :: joinNumerals (n :: m :: ns) = (' ' :: n.text) ++ ',' :: ' ' :: joinNumerals (m :: ns) := rfl
      rw [hjoin, splitCommas_comma (ne_comma_of_plain n.text_plain)]
      simp only [readPieces, readPiece_blank n.text_plain n.text_ne_nil, readNumber_text hn,
        ih (List.cons_ne_nil m ns) hrest]
      rfl

/-- Operands behind a blank are read as their pieces. -/
theorem readOperandList_of_plain {t r : Text} (ht : Plain t) (hne : t ≠ []) :
    readOperandList (' ' :: (t ++ r)) = readPieces (splitCommas (' ' :: (t ++ r))) := by
  refine if_neg fun hblank => ?_
  match t, hne with
  | c :: t, _ =>
    obtain ⟨hc, -⟩ := isPlain_iff.mp (ht c List.mem_cons_self)
    have hall := List.filter_eq_nil_iff.mp hblank c (by simp)
    simp [hc] at hall

theorem joinNumerals_eq_append (n : Numeral) (ns : List Numeral) : ∃ r, joinNumerals (n :: ns) = n.text ++ r := by
  match ns with
  | [] => exact ⟨[], (List.append_nil _).symm⟩
  | m :: ns => exact ⟨',' :: ' ' :: joinNumerals (m :: ns), rfl⟩

theorem ne_semicolon_of_plain {t : Text} (ht : Plain t) : ∀ c ∈ t, c ≠ ';' := by
  intro c hc
  obtain ⟨-, -, hsemicolon⟩ := isPlain_iff.mp (ht c hc)
  exact hsemicolon

theorem joinNumerals_ne_semicolon (ns : List Numeral) : ∀ c ∈ joinNumerals ns, c ≠ ';' := by
  induction ns with
  | nil => exact nofun
  | cons n ns ih =>
    match ns with
    | [] => exact ne_semicolon_of_plain n.text_plain
    | m :: ns =>
      refine List.forall_mem_append.mpr ⟨ne_semicolon_of_plain n.text_plain, ?_⟩
      exact List.forall_mem_cons.mpr ⟨by decide, List.forall_mem_cons.mpr ⟨by decide, ih⟩⟩

/-! ### Lines -/

theorem readWords_port (port : Port) (rest : Text) :
    readWords [portLetter port] rest =
      (readOperandList (splitWord rest).2).bind (readAfterPort port (splitWord rest).1) := by
  cases port <;> rfl

/-- R77: a line is a port, a word, and operands behind a blank. -/
theorem readLine_port (port : Port) {m tail : Text} (hm : Plain m) (hne : m ≠ [])
    (hblank : ∀ c ∈ tail.head?, isBlank c = true) (htail : ∀ c ∈ tail, c ≠ ';') :
    readLine (portLetter port :: ' ' :: (m ++ tail)) =
      ((readOperandList tail).bind (readAfterPort port m)).map some := by
  have hport : Plain [portLetter port] := plain_of_all (by cases port <;> rfl)
  have hcomment : dropComment (portLetter port :: ' ' :: (m ++ tail)) = [portLetter port] ++ ' ' :: (m ++ tail) := by
    refine dropComment_eq_self ?_
    refine List.forall_mem_cons.mpr ⟨ne_semicolon_of_plain hport _ List.mem_cons_self, ?_⟩
    exact List.forall_mem_cons.mpr ⟨by decide, List.forall_mem_append.mpr ⟨ne_semicolon_of_plain hm, htail⟩⟩
  have hfirst : splitWord ([portLetter port] ++ ' ' :: (m ++ tail)) = ([portLetter port], ' ' :: (m ++ tail)) :=
    splitWord_append hport (List.cons_ne_nil _ _) (by simp [isBlank])
  have hsecond : splitWord (' ' :: (m ++ tail)) = (m, tail) :=
    (splitWord_blank rfl).trans (splitWord_append hm hne hblank)
  simp only [readLine, hcomment, hfirst, readWords_port, hsecond]
  exact if_neg (List.cons_ne_nil _ _)

theorem mnemonicOf_plain (op : Opcode) : Plain (mnemonicOf op) := by
  cases op <;> exact plain_of_all rfl

theorem mnemonicOf_ne_nil (op : Opcode) : mnemonicOf op ≠ [] := by
  cases op <;> exact List.cons_ne_nil _ _

/-- R77: no two operations share a mnemonic, and none has that of another kind of line. -/
theorem readAfterPort_mnemonicOf (port : Port) (op : Opcode) (operands : List Nat) :
    readAfterPort port (mnemonicOf op) operands = some (.operation port op operands) := by
  cases op <;> rfl

/-- R78. -/
theorem readAfterPort_word64 (port : Port) (w : Nat) :
    readAfterPort port ".word64".toList [w] = some (.word64 port w) := if_pos rfl

theorem readLine_operation (port : Port) (op : Opcode) {ns : List Numeral} (hfit : ∀ n ∈ ns, n.fits) :
    readLine (portLetter port :: ' ' :: (Printed.line op ns).text) =
      some (some ((Printed.line op ns).onPort port)) := by
  match ns with
  | [] =>
    have hline := readLine_port port (tail := []) (mnemonicOf_plain op) (mnemonicOf_ne_nil op) nofun nofun
    rw [List.append_nil] at hline
    have htext : (Printed.line op []).text = mnemonicOf op := rfl
    have hnone : readOperandList [] = some [] := rfl
    rw [htext, hline, hnone, Option.bind_some, readAfterPort_mnemonicOf, Option.map_some, Printed.onPort,
      List.map_nil]
  | n :: ns =>
    obtain ⟨r, hjoin⟩ := joinNumerals_eq_append n ns
    have hoperands : readOperandList (' ' :: joinNumerals (n :: ns)) = some ((n :: ns).map Numeral.value) := by
      rw [hjoin, readOperandList_of_plain n.text_plain n.text_ne_nil, ← hjoin]
      exact readPieces_joinNumerals (List.cons_ne_nil n ns) hfit
    have hsemicolon : ∀ c ∈ ' ' :: joinNumerals (n :: ns), c ≠ ';' :=
      List.forall_mem_cons.mpr ⟨by decide, joinNumerals_ne_semicolon (n :: ns)⟩
    have htext : (Printed.line op (n :: ns)).text = mnemonicOf op ++ ' ' :: joinNumerals (n :: ns) := rfl
    rw [htext, readLine_port port (mnemonicOf_plain op) (mnemonicOf_ne_nil op) (by simp [isBlank]) hsemicolon,
      hoperands, Option.bind_some, readAfterPort_mnemonicOf, Option.map_some, Printed.onPort]

/-- The number of a `.word64` line as it prints. -/
def wordText (w : Word) : Text := '0' :: 'x' :: printHexDigits 16 w.toNat []

theorem wordText_plain (w : Word) : Plain (wordText w) := by
  refine List.forall_mem_cons.mpr ⟨rfl, List.forall_mem_cons.mpr ⟨rfl, fun c hc => ?_⟩⟩
  obtain hnil | ⟨d, hd, rfl⟩ := mem_printHexDigits 16 w.toNat hc
  · cases hnil
  · exact isPlain_digitChar hd

theorem readNumber_wordText (w : Word) : readNumber (wordText w) = some w.toNat := by
  have hdigits : printHexDigits 16 w.toNat [] ≠ [] :=
    List.ne_nil_of_length_pos (by rw [length_printHexDigits]; decide)
  rw [wordText, readNumber_hex hdigits, readDigits_printHexDigits 16 w.isLt]
  rfl

theorem readLine_word64 (port : Port) (w : Word) :
    readLine (portLetter port :: ' ' :: (Printed.word64 w).text) = some (some ((Printed.word64 w).onPort port)) := by
  have hword : Plain ".word64".toList := plain_of_all rfl
  have hoperands : readOperandList (' ' :: wordText w) = some [w.toNat] := by
    have hlist := readOperandList_of_plain (r := []) (wordText_plain w) (List.cons_ne_nil _ _)
    rw [List.append_nil] at hlist
    exact hlist.trans (readPieces_single (wordText_plain w) (List.cons_ne_nil _ _) (readNumber_wordText w))
  have hsemicolon : ∀ c ∈ ' ' :: wordText w, c ≠ ';' :=
    List.forall_mem_cons.mpr ⟨by decide, ne_semicolon_of_plain (wordText_plain w)⟩
  have htext : (Printed.word64 w).text = ".word64".toList ++ ' ' :: wordText w := rfl
  rw [htext, readLine_port port hword (List.cons_ne_nil _ _) (by simp [isBlank]) hsemicolon, hoperands,
    Option.bind_some, readAfterPort_word64, Option.map_some, Printed.onPort]

/-- Settles O56: the line of an operation and the `.word64` line each read back. -/
theorem disassemblyTextReadsBack : Obligations.DisassemblyTextReadsBack := by
  unfold Obligations.DisassemblyTextReadsBack
  intro port w
  obtain ⟨i, -, hline⟩ | hline := disassemble_cases w
  · rw [hline]
    exact readLine_operation port i.opcode (printOperands_fit i)
  · rw [hline]
    exact readLine_word64 port w

end Sys2Proof.Machine
end
